-- ==== Sys2Proof/Word.lean ====
section
/-! DEFINITION. The word types of the TLV codec engine (00_scope.md section 4). -/

namespace Sys2Proof

/-- A byte: 8 bits, bit 0 the least significant (00_scope.md, Notation). -/
abbrev Byte := BitVec 8

/-- A command word, and every 32-bit port register (30_encoding.md R60). -/
abbrev Word := BitVec 32

/-- An operand payload (00_scope.md R5, operand width 64). -/
abbrev DWord := BitVec 64

end Sys2Proof
end

