-- ==== Sys2Proof/Syntax.lean ====
section
/-! DEFINITION. The commands: one constructor per row of spec/opcode_table.json (30_encoding.md R65). -/

namespace Sys2Proof

/-- The precision MOD.PREC selects in FLTENC and FLTDEC (30_encoding.md R63). -/
inductive Prec where
  /-- PREC = 0, the 32-bit format (suffix `.s`). -/
  | single
  /-- PREC = 1, the 64-bit format (suffix `.d`). -/
  | double
  deriving DecidableEq, Repr

/-- A command. `tag` is the TAG field (R62), `raw` is MOD.RAW (R63): true moves the value portion alone. -/
inductive Instr where
  | lenenc
  | lendec
  | tlvenc (tag : Byte)
  | tlvdec (tag : Byte)
  | wrap (tag : Byte)
  | boolenc (raw : Bool) (tag : Byte)
  | booldec (raw : Bool) (tag : Byte)
  | sintenc (raw : Bool) (tag : Byte)
  | sintdec (raw : Bool) (tag : Byte)
  | uintenc (raw : Bool) (tag : Byte)
  | uintdec (raw : Bool) (tag : Byte)
  | fltenc (prec : Prec) (raw : Bool) (tag : Byte)
  | fltdec (prec : Prec) (raw : Bool) (tag : Byte)
  | qualenc (raw : Bool) (tag : Byte)
  | qualdec (raw : Bool) (tag : Byte)
  | tsenc (raw : Bool) (tag : Byte)
  | tsdec (raw : Bool) (tag : Byte)
  | clrout
  | clrst
  | movoi
  deriving DecidableEq, Repr

end Sys2Proof
end

