-- ==== Sys2Proof/WellFormed.lean ====
section
/-! DEFINITION. Which command terms and which 32-bit words are commands (30_encoding.md R65, R66). -/

namespace Sys2Proof

/-- A raw value-codec command has TAG = 0 (30_encoding.md R66). -/
def rawTagOk (raw : Bool) (tag : Byte) : Bool := !raw || tag == 0

/-- The field constraint of R66 that a command term can break: RAW = 1 with a nonzero TAG. -/
def Instr.wf : Instr → Bool
  | .lenenc | .lendec | .clrout | .clrst | .movoi => true
  | .tlvenc _ | .tlvdec _ | .wrap _ => true
  | .boolenc raw tag | .booldec raw tag | .sintenc raw tag | .sintdec raw tag
  | .uintenc raw tag | .uintdec raw tag | .fltenc _ raw tag | .fltdec _ raw tag
  | .qualenc raw tag | .qualdec raw tag | .tsenc raw tag | .tsdec raw tag => rawTagOk raw tag

/-- The class column of the opcode map (30_encoding.md R65). -/
inductive OpClass where
  | length
  | framing
  | valueCodec
  | control
  deriving DecidableEq, Repr

/-- The class of an opcode, `none` for an unassigned one (30_encoding.md R65, R68). -/
def opClass (op : Byte) : Option OpClass :=
  if op = 0x01 ∨ op = 0x02 then some .length
  else if op = 0x03 ∨ op = 0x04 ∨ op = 0x05 then some .framing
  else if 0x10 ≤ op ∧ op ≤ 0x17 ∨ 0x20 ≤ op ∧ op ≤ 0x23 then some .valueCodec
  else if 0x30 ≤ op ∧ op ≤ 0x32 then some .control
  else none

/-- The legality of a command word, as 30_encoding.md R66 writes it. -/
def legal (w : Word) : Bool :=
  w.extractLsb' 24 8 == 0 &&
  match opClass (w.extractLsb' 0 8) with
  | none => false
  | some .length | some .control => w.extractLsb' 8 8 == 0 && w.extractLsb' 16 8 == 0
  | some .framing => w.extractLsb' 16 8 == 0
  | some .valueCodec =>
    w.extractLsb' 18 6 == 0 &&
    (!w[17] || w.extractLsb' 0 8 == 0x16 || w.extractLsb' 0 8 == 0x17) &&
    (!w[16] || w.extractLsb' 8 8 == 0)

end Sys2Proof
end

