-- ==== Sys2Proof/Decode.lean ====
section
/-! DEFINITION. The decoder of command words, then the encoder and the assembler's text (30_encoding.md). -/

namespace Sys2Proof

/-- Why a word is not a command; every reason makes it ILLEGAL_COMMAND (30_encoding.md R66, R67). -/
inductive DecodeError where
  /-- RSV, bits 31:24, is not 0 (R64). -/
  | reservedField
  /-- OP is not in the opcode map (R65, R68). -/
  | unassignedOpcode
  /-- TAG is not 0 in a length or control command (R66). -/
  | tagNotAllowed
  /-- MOD has a bit the command does not allow (R63, R66). -/
  | modNotAllowed
  /-- RAW = 1 with TAG not 0 (R66). -/
  | rawWithTag
  deriving DecidableEq, Repr

/-- The OP field, bits 7:0 (R61). -/
def opField (w : Word) : Byte := w.extractLsb' 0 8
/-- The TAG field, bits 15:8 (R62). -/
def tagField (w : Word) : Byte := w.extractLsb' 8 8
/-- The MOD field, bits 23:16 (R63). -/
def modField (w : Word) : Byte := w.extractLsb' 16 8
/-- The RSV field, bits 31:24 (R64). -/
def rsvField (w : Word) : Byte := w.extractLsb' 24 8

/-- A length or control command: TAG and MOD are 0 (R66). -/
def decodePlain (tag mod : Byte) (i : Instr) : Except DecodeError Instr :=
  if tag ≠ 0 then .error .tagNotAllowed
  else if mod ≠ 0 then .error .modNotAllowed
  else .ok i

/-- A framing command: any TAG, MOD is 0 (R66). -/
def decodeFraming (tag mod : Byte) (mk : Byte → Instr) : Except DecodeError Instr :=
  if mod ≠ 0 then .error .modNotAllowed else .ok (mk tag)

/-- A value codec without PREC: MOD holds RAW alone, and RAW = 1 needs TAG = 0 (R66). -/
def decodeCodec (tag mod : Byte) (mk : Bool → Byte → Instr) : Except DecodeError Instr :=
  if mod.extractLsb' 1 7 ≠ 0 then .error .modNotAllowed
  else if mod[0] ∧ tag ≠ 0 then .error .rawWithTag
  else .ok (mk mod[0] tag)

/-- A floating-point codec: MOD holds RAW and PREC (R63, R66). -/
def decodeFloat (tag mod : Byte) (mk : Prec → Bool → Byte → Instr) : Except DecodeError Instr :=
  if mod.extractLsb' 2 6 ≠ 0 then .error .modNotAllowed
  else if mod[0] ∧ tag ≠ 0 then .error .rawWithTag
  else .ok (mk (if mod[1] then .double else .single) mod[0] tag)

/-- The opcode map (30_encoding.md R65) over the fields below RSV. -/
def decodeFields (op tag mod : Byte) : Except DecodeError Instr :=
  match op with
  | 0x01 => decodePlain tag mod .lenenc
  | 0x02 => decodePlain tag mod .lendec
  | 0x03 => decodeFraming tag mod .tlvenc
  | 0x04 => decodeFraming tag mod .tlvdec
  | 0x05 => decodeFraming tag mod .wrap
  | 0x10 => decodeCodec tag mod .boolenc
  | 0x11 => decodeCodec tag mod .booldec
  | 0x12 => decodeCodec tag mod .sintenc
  | 0x13 => decodeCodec tag mod .sintdec
  | 0x14 => decodeCodec tag mod .uintenc
  | 0x15 => decodeCodec tag mod .uintdec
  | 0x16 => decodeFloat tag mod .fltenc
  | 0x17 => decodeFloat tag mod .fltdec
  | 0x20 => decodeCodec tag mod .qualenc
  | 0x21 => decodeCodec tag mod .qualdec
  | 0x22 => decodeCodec tag mod .tsenc
  | 0x23 => decodeCodec tag mod .tsdec
  | 0x30 => decodePlain tag mod .clrout
  | 0x31 => decodePlain tag mod .clrst
  | 0x32 => decodePlain tag mod .movoi
  | _ => .error .unassignedOpcode

/-- The decoder: one 32-bit word, one format (R60, R69); a nonzero RSV is refused (R64). -/
def decode (w : Word) : Except DecodeError Instr :=
  if rsvField w ≠ 0 then .error .reservedField
  else decodeFields (opField w) (tagField w) (modField w)

/-- The 32-bit command word of a table word given by its `nbits` low bits, the bits above being 0.
A command is one word and no second word is read (30_encoding.md R69). -/
def tableWord (nbits w : Nat) : Word := BitVec.ofNat 32 (w % 2 ^ nbits)

/-- What the decoder reads from a table word (30_encoding.md R60); `none` where it refuses. -/
def decodeTableWord (nbits w : Nat) : Option Instr :=
  match decode (tableWord nbits w) with
  | .ok i => some i
  | .error _ => none

/-! The encoder, from the same tables (30_encoding.md R60, R63, R65). -/

/-- The OP value of a command (30_encoding.md R65). -/
def Instr.opcode : Instr → Byte
  | .lenenc => 0x01
  | .lendec => 0x02
  | .tlvenc _ => 0x03
  | .tlvdec _ => 0x04
  | .wrap _ => 0x05
  | .boolenc _ _ => 0x10
  | .booldec _ _ => 0x11
  | .sintenc _ _ => 0x12
  | .sintdec _ _ => 0x13
  | .uintenc _ _ => 0x14
  | .uintdec _ _ => 0x15
  | .fltenc _ _ _ => 0x16
  | .fltdec _ _ _ => 0x17
  | .qualenc _ _ => 0x20
  | .qualdec _ _ => 0x21
  | .tsenc _ _ => 0x22
  | .tsdec _ _ => 0x23
  | .clrout => 0x30
  | .clrst => 0x31
  | .movoi => 0x32

/-- The TAG field of a command, 0 where it uses none (30_encoding.md R62). -/
def Instr.tagByte : Instr → Byte
  | .lenenc | .lendec | .clrout | .clrst | .movoi => 0
  | .tlvenc tag | .tlvdec tag | .wrap tag => tag
  | .boolenc _ tag | .booldec _ tag | .sintenc _ tag | .sintdec _ tag
  | .uintenc _ tag | .uintdec _ tag | .fltenc _ _ tag | .fltdec _ _ tag
  | .qualenc _ tag | .qualdec _ tag | .tsenc _ tag | .tsdec _ tag => tag

/-- MOD.RAW of a command (30_encoding.md R63). -/
def Instr.rawBit : Instr → Bool
  | .lenenc | .lendec | .clrout | .clrst | .movoi => false
  | .tlvenc _ | .tlvdec _ | .wrap _ => false
  | .boolenc raw _ | .booldec raw _ | .sintenc raw _ | .sintdec raw _
  | .uintenc raw _ | .uintdec raw _ | .fltenc _ raw _ | .fltdec _ raw _
  | .qualenc raw _ | .qualdec raw _ | .tsenc raw _ | .tsdec raw _ => raw

/-- The PREC bit of a precision (30_encoding.md R63). -/
def Prec.bit : Prec → Bool
  | .single => false
  | .double => true

/-- MOD.PREC of a command (30_encoding.md R63). -/
def Instr.precBit : Instr → Bool
  | .fltenc prec _ _ | .fltdec prec _ _ => prec.bit
  | .lenenc | .lendec | .clrout | .clrst | .movoi => false
  | .tlvenc _ | .tlvdec _ | .wrap _ => false
  | .boolenc _ _ | .booldec _ _ | .sintenc _ _ | .sintdec _ _ | .uintenc _ _ | .uintdec _ _
  | .qualenc _ _ | .qualdec _ _ | .tsenc _ _ | .tsdec _ _ => false

/-- MOD of a command: RAW at bit 0, PREC at bit 1, the rest 0 (30_encoding.md R63). -/
def Instr.modByte (i : Instr) : Byte :=
  (0 : BitVec 6) ++ BitVec.ofBool i.precBit ++ BitVec.ofBool i.rawBit

/-- The word of a command: RSV, MOD, TAG, OP from the top (30_encoding.md R60, R70). -/
def encode (i : Instr) : Word := (0 : Byte) ++ i.modByte ++ i.tagByte ++ i.opcode

/-! The assembler's text (30_encoding.md R70, R71; log entry 14). -/

/-- The mnemonic of a command (30_encoding.md R65). -/
def Instr.mnemonic : Instr → String
  | .lenenc => "LENENC"
  | .lendec => "LENDEC"
  | .tlvenc _ => "TLVENC"
  | .tlvdec _ => "TLVDEC"
  | .wrap _ => "WRAP"
  | .boolenc _ _ => "BOOLENC"
  | .booldec _ _ => "BOOLDEC"
  | .sintenc _ _ => "SINTENC"
  | .sintdec _ _ => "SINTDEC"
  | .uintenc _ _ => "UINTENC"
  | .uintdec _ _ => "UINTDEC"
  | .fltenc _ _ _ => "FLTENC"
  | .fltdec _ _ _ => "FLTDEC"
  | .qualenc _ _ => "QUALENC"
  | .qualdec _ _ => "QUALDEC"
  | .tsenc _ _ => "TSENC"
  | .tsdec _ _ => "TSDEC"
  | .clrout => "CLROUT"
  | .clrst => "CLRST"
  | .movoi => "MOVOI"

/-- One hexadecimal digit, capital as the spec's examples write it. -/
def hexDigit (n : Nat) : String :=
  ["0", "1", "2", "3", "4", "5", "6", "7", "8", "9", "A", "B", "C", "D", "E", "F"].getD n ""

/-- A tag operand, `0xNN` (30_encoding.md R70). -/
def tagText (tag : Byte) : String :=
  " 0x" ++ hexDigit (tag.toNat / 16) ++ hexDigit (tag.toNat % 16)

/-- The suffix and tag of a value-codec command (30_encoding.md R70). -/
def codecText (raw : Bool) (tag : Byte) : String := if raw then ".raw" else tagText tag

/-- The precision suffix (30_encoding.md R70). -/
def precText : Prec → String
  | .single => ".s"
  | .double => ".d"

/-- A command as an assembler writes it (30_encoding.md R70). -/
def Instr.assembly (i : Instr) : String :=
  i.mnemonic ++
  match i with
  | .lenenc | .lendec | .clrout | .clrst | .movoi => ""
  | .tlvenc tag | .tlvdec tag | .wrap tag => tagText tag
  | .fltenc prec raw tag | .fltdec prec raw tag => precText prec ++ codecText raw tag
  | .boolenc raw tag | .booldec raw tag | .sintenc raw tag | .sintdec raw tag
  | .uintenc raw tag | .uintdec raw tag | .qualenc raw tag | .qualdec raw tag
  | .tsenc raw tag | .tsdec raw tag => codecText raw tag

/-- The expansion of the one pseudo-instruction, NEWMSG (30_encoding.md R71). -/
def newmsg : List Instr := [.clrout, .clrst]

end Sys2Proof
end

