-- ==== Sys2Proof/Config.lean ====
section
/-! DEFINITION. The block's parameters, and the free values of the bytes the spec leaves unspecified. -/

namespace Sys2Proof.Config

/-- The parameters that 00_scope.md R5 leaves to the implementation. `Machine.State` carries them, so that every
statement about a state is a statement for every choice of them (log entries 4, 5). -/
structure Params where
  /-- BUF_CAP, the capacity of IN and of OUT in bytes; also what the CAP register reads (R5, R18). -/
  bufCap : Word
  /-- DOUBLE_DISC, the FloatingPoint discriminator of the 64-bit format (R5). -/
  doubleDisc : Byte
  deriving DecidableEq, Repr

/-- The constraints of R5: `16 <= BUF_CAP <= 2^32 - 1` (the upper bound is the width) and `DOUBLE_DISC != 0x08`. -/
def Params.ok (p : Params) : Bool := 16 ≤ p.bufCap.toNat && p.doubleDisc != 0x08

/-- The reference values of 92_eei_decisions.md (Open parameters). DESIGN CHOICE for `State.reset` (log entries 4, 5);
unsafe for a statement that rests on them. -/
def reference : Params := { bufCap := 1500, doubleDisc := 0x11 }

/-- FREE VALUE: IN byte `i` while nothing has written it, in the buffer's generation `gen`
(93_implementation_defined.md U2, U4; log entry 6). -/
opaque unspecifiedIn (gen i : Nat) : Byte

/-- FREE VALUE: OUT byte `i` while its value is unspecified, in the buffer's generation `gen`
(93_implementation_defined.md U2, U3; log entries 6, 7). -/
opaque unspecifiedOut (gen i : Nat) : Byte

end Sys2Proof.Config
end

