-- ==== Sys2Proof/Machine/State.lean ====
section
/-! DEFINITION. The state of the TLV codec engine (10_state.md R10) as plain data, and the state after reset. -/

namespace Sys2Proof.Machine

/-- An operand register: a 4-bit kind code and a 64-bit payload (10_state.md R11, R12). The host may write any kind
code, reserved ones included (R13), so the code is kept as bits. -/
structure Operand where
  kind : BitVec 4
  val : DWord
  deriving DecidableEq, Repr

/-- A byte buffer, IN or OUT (10_state.md R16, R17). `cells` lists the bytes whose value is specified, by strictly
rising index; an index that is not listed holds an unspecified byte, the free value of generation `gen` there
(log entries 6, 7). -/
structure Memory where
  cells : List Host.Cell
  gen : Nat
  deriving DecidableEq, Repr

/-- What an index that `cells` does not list reads as: no specified byte (93_implementation_defined.md U2 to U4). -/
def Memory.unlisted : Option Byte := none

/-- Every listed index lies above `lo`, and the indices rise strictly. -/
def cellsRise : List Host.Cell → Bool
  | [] => true
  | [_] => true
  | a :: b :: cs => a.1 < b.1 && cellsRise (b :: cs)

/-- The canonical form of a buffer: strictly rising indices. An unlisted index reads as no byte, so no entry can
equal what it would read as unlisted. -/
def Memory.wf (m : Memory) : Bool := cellsRise m.cells

/-- A buffer all of whose bytes are unspecified. -/
def Memory.fresh (gen : Nat) : Memory := { cells := [], gen := gen }

/-- The STATUS register's fields (10_state.md R19). -/
structure Status where
  /-- CODE, bits 7:0. -/
  code : Byte
  /-- LASTOP, bits 15:8. -/
  lastop : Byte
  /-- STICKY, bit 31. -/
  sticky : Bool
  deriving DecidableEq, Repr

/-- The error codes by name (60_exceptions.md R161). -/
inductive ErrorCode where
  | typeMismatch
  | rangeUnsignedNegative
  | rangeUnsignedTooLarge
  /-- Reserved, never raised (R161, U10). -/
  | rangeSigned
  | rangeAccuracy
  | rangeLength
  | rangeTimestamp
  | rangeAccuracyWire
  | wrongTag
  | truncated
  | malformedLength
  | incomplete
  | extraTrailing
  | wrongFloatDisc
  | badValueLength
  /-- Reserved, never raised (R161, U10). -/
  | invariantViolation
  | illegalCommand
  | capacity
  deriving DecidableEq, Repr

/-- One host access at the port (20_memory.md R44, R45; 70_reset_and_hazards.md R180, R189). A register value is
given as 64 bits, of which the access carries the register's width (log entry 8). -/
inductive HostAction where
  /-- Write of port register `n`; register 0 is CMD, whose write executes a command. -/
  | writeReg (n : BitVec 4) (v : DWord)
  /-- Read of port register `n`. -/
  | readReg (n : BitVec 4)
  /-- `in_write(i, b)`. -/
  | inWrite (i : Nat) (b : Byte)
  /-- `in_read(i)`. -/
  | inRead (i : Nat)
  /-- `out_read(i)`. -/
  | outRead (i : Nat)
  /-- The host system asserts reset (R180). -/
  | reset
  deriving DecidableEq, Repr

/-- The state: R10's tuple, the parameters, and the model's own host port (log entries 1, 3). -/
structure State where
  /-- OPA, operand register 0 (R11). -/
  opa : Operand
  /-- OPB, operand register 1 (R12). -/
  opb : Operand
  /-- IN (R16). -/
  input : Memory
  /-- IN_LEN (R16). -/
  inLen : Word
  /-- OUT (R17). -/
  output : Memory
  /-- OUT_LEN (R17). -/
  outLen : Word
  /-- STATUS (R19). -/
  status : Status
  /-- BUF_CAP (the CAP register, R18) and DOUBLE_DISC (00_scope.md R5): constants of the block. -/
  params : Config.Params
  /-- The MODEL's own: the host's accesses still to come, in port order (20_memory.md R50; log entry 1). -/
  pending : List HostAction
  /-- The MODEL's own: what the latest access handed back to the host (R189; log entry 3). -/
  reply : Option DWord
  deriving DecidableEq, Repr

/-- Faults: the spec gives the block none. Every error is reported in STATUS and the block goes on
(60_exceptions.md R162, R166, R168), and every host access is defined (20_memory.md R44 to R46), so this type has
no constructor (log entry 13). -/
inductive Fault where
  deriving DecidableEq, Repr

/-- Refusals of `exec`. -/
inductive Refusal where
  /-- Raised by an arm of `exec` that has no meaning yet; safe. No arm raises it: every command is modelled. -/
  | notModelled (mnemonic : String)
  deriving DecidableEq, Repr

/-- The state after reset for a block with parameters `p` (10_state.md R27). -/
def State.resetWith (p : Config.Params) : State where
  opa := { kind := 0, val := 0 }
  opb := { kind := 0, val := 0 }
  input := Memory.fresh 0
  inLen := 0
  output := Memory.fresh 0
  outLen := 0
  status := { code := 0, lastop := 0, sticky := false }
  params := p
  pending := []
  reply := none

/-- The machine right after reset (10_state.md R27), with the reference parameters (log entries 4, 5). -/
def State.reset : State := State.resetWith Config.reference

end Sys2Proof.Machine
end

