-- ==== Sys2Proof/Machine/Flags.lean ====
section
/-! DEFINITION. The STATUS register: its error codes, how a command writes it, how the host reads it
(10_state.md R19 to R22, R25; 60_exceptions.md R161, R162). -/

namespace Sys2Proof.Machine

/-- The numeric error codes (60_exceptions.md R161). -/
def ErrorCode.code : ErrorCode → Byte
  | .typeMismatch => 0x10
  | .rangeUnsignedNegative => 0x20
  | .rangeUnsignedTooLarge => 0x21
  | .rangeSigned => 0x22
  | .rangeAccuracy => 0x23
  | .rangeLength => 0x24
  | .rangeTimestamp => 0x25
  | .rangeAccuracyWire => 0x26
  | .wrongTag => 0x30
  | .truncated => 0x31
  | .malformedLength => 0x32
  | .incomplete => 0x33
  | .extraTrailing => 0x34
  | .wrongFloatDisc => 0x35
  | .badValueLength => 0x36
  | .invariantViolation => 0x40
  | .illegalCommand => 0x50
  | .capacity => 0x51

/-- STATUS after a command that raised: CODE, LASTOP, and STICKY set (60_exceptions.md R162; 10_state.md R22). -/
def Status.raised (op : Byte) (e : ErrorCode) : Status :=
  { code := e.code, lastop := op, sticky := true }

/-- STATUS after a command that completed: CODE 0x00, LASTOP, STICKY as it was (60_exceptions.md R162; 10_state.md R22). -/
def Status.completed (st : Status) (op : Byte) : Status :=
  { st with code := 0x00, lastop := op }

/-- STATUS with STICKY cleared (43_buffer_control.md R151). -/
def Status.clearSticky (st : Status) : Status := { st with sticky := false }

/-- The 32-bit STATUS register: STICKY at bit 31, bits 30:16 zero, LASTOP, CODE (10_state.md R19). -/
def Status.word (st : Status) : Word :=
  BitVec.ofBool st.sticky ++ (0 : BitVec 15) ++ st.lastop ++ st.code

end Sys2Proof.Machine
end

