-- ==== Sys2Proof/Machine/Operands.lean ====
section
/-! DEFINITION. Operand registers: kind codes, how a command reads a payload, what it writes (10_state.md R13 to R15). -/

namespace Sys2Proof.Machine

/-! Kind codes (10_state.md R13); 6 to 15 are reserved. -/

/-- NONE: the absent value. -/
abbrev Kind.none : BitVec 4 := 0
/-- BOOL. -/
abbrev Kind.bool : BitVec 4 := 1
/-- INT. -/
abbrev Kind.int : BitVec 4 := 2
/-- FLOAT32. -/
abbrev Kind.float32 : BitVec 4 := 3
/-- FLOAT64. -/
abbrev Kind.float64 : BitVec 4 := 4
/-- QUALITY. -/
abbrev Kind.quality : BitVec 4 := 5

/-! Reading a payload (10_state.md R14, R15). A kind the command does not accept is TYPE_MISMATCH. -/

/-- The INT operand `sint64(val)` (R14). -/
def Operand.readInt (o : Operand) : Except ErrorCode Int :=
  if o.kind = Kind.int then .ok o.val.toInt else .error .typeMismatch

/-- The FLOAT32 operand's bit pattern `val[31:0]`; the upper half is ignored (R14). -/
def Operand.readFloat32 (o : Operand) : Except ErrorCode Word :=
  if o.kind = Kind.float32 then .ok (o.val.extractLsb' 0 32) else .error .typeMismatch

/-- The FLOAT64 operand's bit pattern (R14). -/
def Operand.readFloat64 (o : Operand) : Except ErrorCode DWord :=
  if o.kind = Kind.float64 then .ok o.val else .error .typeMismatch

/-- The payload of a QUALITY operand (R15). -/
def Operand.readQuality (o : Operand) : Except ErrorCode DWord :=
  if o.kind = Kind.quality then .ok o.val else .error .typeMismatch

/-- LSK, leap-seconds-known, of a QUALITY payload (R15). -/
def qualityLsk (v : DWord) : Bool := v[0]
/-- CF, clock-failure, of a QUALITY payload (R15). -/
def qualityCf (v : DWord) : Bool := v[1]
/-- CNS, clock-not-synchronized, of a QUALITY payload (R15). -/
def qualityCns (v : DWord) : Bool := v[2]
/-- ACC, time-accuracy, of a QUALITY payload (R15). -/
def qualityAcc (v : DWord) : Byte := v.extractLsb' 8 8

/-! What a command writes into an operand register (10_state.md R14, R15). -/

/-- The absent value. -/
def Operand.ofNone : Operand := { kind := Kind.none, val := 0 }
/-- A Boolean: payload 1 or 0. -/
def Operand.ofBool (b : Bool) : Operand := { kind := Kind.bool, val := if b then 1 else 0 }
/-- An integer as 64-bit two's complement. -/
def Operand.ofInt (n : Int) : Operand := { kind := Kind.int, val := BitVec.ofInt 64 n }
/-- A binary32 pattern, zero-extended. -/
def Operand.ofFloat32 (bits : Word) : Operand := { kind := Kind.float32, val := bits.setWidth 64 }
/-- A binary64 pattern. -/
def Operand.ofFloat64 (bits : DWord) : Operand := { kind := Kind.float64, val := bits }
/-- A Quality with its reserved bits 0 (R15). -/
def Operand.ofQuality (lsk cf cns : Bool) (acc : Byte) : Operand :=
  { kind := Kind.quality,
    val := (if lsk then 1 else 0) ||| (if cf then 2 else 0) ||| (if cns then 4 else 0) |||
      (acc.setWidth 64 <<< 8) }

end Sys2Proof.Machine
end

