-- ==== Sys2Proof/Machine/Ops.lean ====
section
/-! DEFINITION. The operations over buffers and registers that the commands share, and what an error does
(00_scope.md section 4; 20_memory.md; 60_exceptions.md R160, R162). -/

namespace Sys2Proof.Machine

/-! Buffers. -/

/-- The byte a list of cells gives index `i`, `Memory.unlisted` where it gives none. -/
def cellsLookup : List Host.Cell → Nat → Option Byte
  | [], _ => Memory.unlisted
  | (a, b) :: cs, i => if a = i then some b else cellsLookup cs i

/-- The specified byte at index `i`, if it has one. -/
def Memory.lookup (m : Memory) (i : Nat) : Option Byte := cellsLookup m.cells i

/-- The cells of a byte sequence laid out from index `a`. -/
def cellsFrom : Nat → List Byte → List Host.Cell
  | _, [] => []
  | a, b :: bs => (a, b) :: cellsFrom (a + 1) bs

/-- `MemWrite(_, a, |bs|, bs)` (00_scope.md section 4): bytes `a` to `a + |bs| - 1` become `bs`, no other changes. -/
def Memory.write (m : Memory) (a : Nat) (bs : List Byte) : Memory :=
  { m with
    cells := m.cells.filter (fun c => c.1 < a) ++ cellsFrom a bs ++
      m.cells.filter (fun c => a + bs.length ≤ c.1) }

/-- Every byte becomes unspecified: the listed bytes go, and a new generation of free values comes
(93_implementation_defined.md U2, U3; log entries 6, 7). -/
def Memory.forget (m : Memory) : Memory := Memory.fresh (m.gen + 1)

/-- `IN[i]`: the byte written there, or the free value of an unspecified byte (10_state.md R16; U2, U4). -/
def State.inByte (s : State) (i : Nat) : Byte :=
  (s.input.lookup i).getD (Config.unspecifiedIn s.input.gen i)

/-- `OUT[i]`: the byte a command wrote there, or the free value of an unspecified byte (10_state.md R17; U2, U3). -/
def State.outByte (s : State) (i : Nat) : Byte :=
  (s.output.lookup i).getD (Config.unspecifiedOut s.output.gen i)

/-- BUF_CAP as a number (00_scope.md R5). -/
def State.cap (s : State) : Nat := s.params.bufCap.toNat

/-- `MemRead(IN, 0, IN_LEN)`: all of IN that a command reads (20_memory.md R41). -/
def State.inBytes (s : State) : List Byte := (List.range s.inLen.toNat).map s.inByte

/-- `MemRead(OUT, 0, OUT_LEN)`: all of OUT that a command reads (20_memory.md R41). -/
def State.outBytes (s : State) : List Byte := (List.range s.outLen.toNat).map s.outByte

/-- `Append(t)` (00_scope.md section 4), after the capacity check that every appending command makes last
(41_scalar_codecs.md R100; 60_exceptions.md R164). -/
def State.append (s : State) (t : List Byte) : Except ErrorCode State :=
  if s.cap < s.outLen.toNat + t.length then .error .capacity
  else .ok { s with
    output := s.output.write s.outLen.toNat t
    outLen := BitVec.ofNat 32 (s.outLen.toNat + t.length) }

/-- OUT's contents replaced by `v`; the bytes above become unspecified (40_tlv_engine.md R87; U3). -/
def State.replaceOut (s : State) (v : List Byte) : State :=
  { s with output := s.output.forget.write 0 v, outLen := BitVec.ofNat 32 v.length }

/-- OUT emptied, its bytes unspecified (43_buffer_control.md R150, R152; U3). -/
def State.emptyOut (s : State) : State :=
  { s with output := s.output.forget, outLen := 0 }

/-! Operand registers. -/

/-- `x[0] <- o`: write OPA (10_state.md R11). -/
def State.setOpa (s : State) (o : Operand) : State := { s with opa := o }

/-- `x[1] <- o`: write OPB (10_state.md R12). -/
def State.setOpb (s : State) (o : Operand) : State := { s with opb := o }

/-! The end of a command. -/

/-- WHAT AN ERROR DOES, the block's whole exception entry (60_exceptions.md R162, R168): STATUS alone is written.
`s` is the state when CMD was written. There is no handler and no return (R168). -/
def State.raiseError (s : State) (op : Byte) (e : ErrorCode) : State :=
  { s with status := Status.raised op e }

/-- What completing does beside the command's results: CODE 0x00 and LASTOP (60_exceptions.md R162). -/
def State.complete (s : State) (op : Byte) : State :=
  { s with status := s.status.completed op }

/-- The commit rule (60_exceptions.md R160, R162): `r` is what the command's pseudocode comes to from `s`, an error
at its first raise or the state with the results written. -/
def State.commit (s : State) (op : Byte) (r : Except ErrorCode State) : Host.Outcome State Fault Refusal :=
  match r with
  | .ok s' => .next (s'.complete op)
  | .error e => .next (s.raiseError op e)

end Sys2Proof.Machine
end

