-- ==== Sys2Proof/Machine/Control.lean ====
section
/-! DEFINITION. The buffer and status control commands: CLROUT, CLRST, MOVOI (43_buffer_control.md). -/

namespace Sys2Proof.Machine

/-- CLROUT (43_buffer_control.md R150): OUT_LEN 0; the bytes of OUT become unspecified. -/
def execClrout (s : State) : Host.Outcome State Fault Refusal :=
  s.commit Instr.clrout.opcode (.ok s.emptyOut)

/-- CLRST (43_buffer_control.md R151): STICKY 0. -/
def execClrst (s : State) : Host.Outcome State Fault Refusal :=
  s.commit Instr.clrst.opcode (.ok { s with status := s.status.clearSticky })

/-- MOVOI (43_buffer_control.md R152): OUT's contents become IN's; OUT is emptied. -/
def execMovoi (s : State) : Host.Outcome State Fault Refusal :=
  s.commit Instr.movoi.opcode
    (.ok { s.emptyOut with input := s.input.write 0 s.outBytes, inLen := s.outLen })

end Sys2Proof.Machine
end

