-- ==== Sys2Proof/Machine/Bytes.lean ====
section
/-! DEFINITION. Big-endian conversions of byte sequences (00_scope.md section 4; 20_memory.md R42). -/

namespace Sys2Proof.Machine

/-- `be_N(v)`: the `n`-byte sequence of `v`, most significant byte first. -/
def be : (n : Nat) → (v : Nat) → List Byte
  | 0, _ => []
  | n + 1, v => BitVec.ofNat 8 (v >>> (8 * n)) :: be n v

/-- `ube(s)`: the unsigned value of a byte sequence read big-endian. -/
def ube : List Byte → Nat
  | [] => 0
  | b :: bs => b.toNat * 256 ^ bs.length + ube bs

/-- `sbe(s)`: the two's-complement value of a byte sequence read big-endian. -/
def sbe (s : List Byte) : Int :=
  match s with
  | [] => 0
  | b :: _ => if 0x80 ≤ b.toNat then (ube s : Int) - 2 ^ (8 * s.length) else ube s

end Sys2Proof.Machine
end

