-- ==== Sys2Proof/Machine/Engine.lean ====
section
/-! DEFINITION. The engine functions every field shares (40_tlv_engine.md R80 to R83) and how a value codec meets
them (41_scalar_codecs.md R100). -/

namespace Sys2Proof.Machine

/-- `berlen(L)`: the definite-length bytes of a length (40_tlv_engine.md R80). -/
def berlen (l : Int) : Except ErrorCode (List Byte) :=
  if l < 0 ∨ l > 2 ^ 32 - 1 then .error .rangeLength
  else if l ≤ 127 then .ok (be 1 l.toNat)
  else if l ≤ 255 then .ok (0x81 :: be 1 l.toNat)
  else if l ≤ 65535 then .ok (0x82 :: be 2 l.toNat)
  else .ok (0x84 :: be 4 l.toNat)

/-- `parselen(s, p)`: the length field that starts at index `p`, and the index after it (40_tlv_engine.md R81). -/
def parselen (s : List Byte) (p : Nat) : Except ErrorCode (Nat × Nat) :=
  match s[p]? with
  | none => .error .truncated
  | some b =>
    if b.toNat ≤ 0x7F then .ok (b.toNat, p + 1)
    else
      let k := (b.extractLsb' 0 7).toNat
      if k ≠ 1 ∧ k ≠ 2 ∧ k ≠ 4 then .error .malformedLength
      else if s.length < p + 1 + k then .error .truncated
      else .ok (ube ((s.drop (p + 1)).take k), p + 1 + k)

/-- `frame(tag, v)` (40_tlv_engine.md R82). Inside a command `berlen` cannot raise: `|v| <= 2^32 - 1`. -/
def frame (tag : Byte) (v : List Byte) : Except ErrorCode (List Byte) := do
  let l ← berlen v.length
  return tag :: (l ++ v)

/-- `unframe(s, tag)`: `s` is exactly one TLV with tag `tag`; its value bytes (40_tlv_engine.md R83). -/
def unframe (s : List Byte) (tag : Byte) : Except ErrorCode (List Byte) :=
  match s[0]? with
  | none => .error .truncated
  | some b =>
    if b ≠ tag then .error .wrongTag
    else do
      let (l, q) ← parselen s 1
      let rem := s.length - q
      if rem < l then .error .incomplete
      else if l < rem then .error .extraTrailing
      else return s.drop q

/-- `EmitValue(v)`: append a value portion, framed with TAG unless RAW (41_scalar_codecs.md R100). -/
def State.emitValue (s : State) (raw : Bool) (tag : Byte) (v : List Byte) : Except ErrorCode State :=
  if raw then s.append v
  else do
    let t ← frame tag v
    s.append t

/-- `TakeValue()`: the value portion in IN, unframed unless RAW (41_scalar_codecs.md R100). -/
def State.takeValue (s : State) (raw : Bool) (tag : Byte) : Except ErrorCode (List Byte) :=
  if raw then .ok s.inBytes else unframe s.inBytes tag

end Sys2Proof.Machine
end

