-- ==== Sys2Proof/Machine/Float.lean ====
section
/-! DEFINITION. The binary64 format as far as the Timestamp codec computes with it (42_quality_timestamp.md R134, R135,
R137). PRESUMED: the IEEE-754 bit layout, which the spec takes from general knowledge (00_scope.md section 4;
93_implementation_defined.md G2; log entry 9); unsafe if the hardware's layout differs. -/

namespace Sys2Proof.Machine

/-- The biased exponent field of a binary64 pattern. -/
def f64Exponent (b : DWord) : Nat := (b.extractLsb' 52 11).toNat

/-- The fraction field of a binary64 pattern. -/
def f64Mantissa (b : DWord) : Nat := (b.extractLsb' 0 52).toNat

/-- `isNaN`. -/
def f64IsNaN (b : DWord) : Bool := f64Exponent b == 2047 && f64Mantissa b != 0

/-- `isInf`, of either sign. -/
def f64IsInf (b : DWord) : Bool := f64Exponent b == 2047 && f64Mantissa b == 0

/-- `s < 0` for a finite pattern: the sign is set and the magnitude is not zero (`-0.0` is not negative, R135). -/
def f64IsNegative (b : DWord) : Bool := b[63] && (f64Exponent b != 0 || f64Mantissa b != 0)

/-- The reciprocal of the least positive binary64 value: every finite value is a multiple of `1 / f64Unit`.
Irreducible, so that no proof evaluates the number by accident. -/
@[irreducible] def f64Unit : Nat := 2 ^ 1074

/-- The magnitude of a finite pattern times `f64Unit`, exactly. -/
def f64Scaled (b : DWord) : Nat :=
  if f64Exponent b = 0 then f64Mantissa b
  else (2 ^ 52 + f64Mantissa b) * 2 ^ (f64Exponent b - 1)

/-- `n / d` rounded to the nearest integer, ties to the even one (42_quality_timestamp.md R134). -/
def roundHalfEven (n d : Nat) : Nat :=
  let q := n / d
  let r := n % d
  if 2 * r < d then q
  else if d < 2 * r then q + 1
  else if q % 2 = 0 then q
  else q + 1

/-- SEC and FRAC of a finite `s >= 0` (42_quality_timestamp.md R134, R136): the floor, and the fraction times 2^24
rounded, a fraction that rounds to 2^24 carried into the seconds (R135). -/
def timestampFields (b : DWord) : Nat × Nat :=
  let sec := f64Scaled b / f64Unit
  let r := roundHalfEven (f64Scaled b % f64Unit * 2 ^ 24) f64Unit
  if r = 2 ^ 24 then (sec + 1, 0) else (sec, r)

/-- `bits64(rne64(n / 2^24))` for `n < 2^56` (42_quality_timestamp.md R137, R138): `n` has its top bit at weight
`2^(L-24)`; of its bits the 53 highest are kept, the rest rounded to nearest, ties to even. A significand that rounds
up to 2^53 moves the exponent by one through the sum. Zero is +0.0. -/
def f64OfFixed24 (n : Nat) : DWord :=
  if n = 0 then 0
  else
    let top := Nat.log2 n
    let significand := if top ≤ 52 then n * 2 ^ (52 - top) else roundHalfEven n (2 ^ (top - 52))
    BitVec.ofNat 64 ((top + 999) * 2 ^ 52 + (significand - 2 ^ 52))

end Sys2Proof.Machine
end

