-- ==== Sys2Proof/Machine/QualityTime.lean ====
section
/-! DEFINITION. The Quality and Timestamp codecs (42_quality_timestamp.md). -/

namespace Sys2Proof.Machine

/-! Quality. -/

/-- The Quality wire byte of the four fields (42_quality_timestamp.md R130; bit numbering 00_scope.md R6). -/
def qualityByte (lsk cf cns : Bool) (acc : Byte) : Byte :=
  (if lsk then 0x80 else 0) ||| (if cf then 0x40 else 0) ||| (if cns then 0x20 else 0) ||| acc

/-- `qualval(op)` (42_quality_timestamp.md R131). -/
def qualval (o : Operand) : Except ErrorCode (List Byte) := do
  let v ← o.readQuality
  if (qualityAcc v).toNat ≤ 24 ∨ (qualityAcc v).toNat = 31 then
    return [qualityByte (qualityLsk v) (qualityCf v) (qualityCns v) (qualityAcc v)]
  else .error .rangeAccuracy

/-- `qualof(b)` (42_quality_timestamp.md R132). -/
def qualof (b : Byte) : Except ErrorCode Operand :=
  let acc := b.extractLsb' 0 5
  if 25 ≤ acc.toNat ∧ acc.toNat ≤ 30 then .error .rangeAccuracyWire
  else .ok (.ofQuality b[7] b[6] b[5] (acc.setWidth 8))

/-- QUALENC (42_quality_timestamp.md R131). -/
def execQualenc (raw : Bool) (tag : Byte) (s : State) : Host.Outcome State Fault Refusal :=
  s.commit (Instr.qualenc raw tag).opcode do
    let v ← qualval s.opb
    s.emitValue raw tag v

/-- The operand of a Quality value portion, exactly 1 byte (42_quality_timestamp.md R132). -/
def qualdecValue : List Byte → Except ErrorCode Operand
  | [b] => qualof b
  | _ => .error .badValueLength

/-- QUALDEC (42_quality_timestamp.md R132). -/
def execQualdec (raw : Bool) (tag : Byte) (s : State) : Host.Outcome State Fault Refusal :=
  s.commit (Instr.qualdec raw tag).opcode do
    let v ← s.takeValue raw tag
    let q ← qualdecValue v
    return s.setOpb q

/-! Timestamp. -/

/-- `tsval(a, q)` (42_quality_timestamp.md R136): both kinds, then the seconds, then the Quality. -/
def tsval (a q : Operand) : Except ErrorCode (List Byte) := do
  let bits ← a.readFloat64
  let _ ← q.readQuality
  if f64IsNaN bits ∨ f64IsInf bits ∨ f64IsNegative bits then .error .rangeTimestamp
  else
    let (sec, r) := timestampFields bits
    if sec > 2 ^ 32 - 1 then .error .rangeTimestamp
    else
      let qb ← qualval q
      return be 4 sec ++ be 3 r ++ qb

/-- TSENC (42_quality_timestamp.md R136). -/
def execTsenc (raw : Bool) (tag : Byte) (s : State) : Host.Outcome State Fault Refusal :=
  s.commit (Instr.tsenc raw tag).opcode do
    let v ← tsval s.opa s.opb
    s.emitValue raw tag v

/-- The seconds and the Quality of a Timestamp value portion, exactly 8 bytes (42_quality_timestamp.md R133, R137, R138). -/
def tsof : List Byte → Except ErrorCode (Operand × Operand)
  | [s0, s1, s2, s3, f0, f1, f2, qb] => do
    let q ← qualof qb
    let sec := ube [s0, s1, s2, s3]
    let r := ube [f0, f1, f2]
    return (.ofFloat64 (f64OfFixed24 (sec * 2 ^ 24 + r)), q)
  | _ => .error .badValueLength

/-- TSDEC (42_quality_timestamp.md R138). -/
def execTsdec (raw : Bool) (tag : Byte) (s : State) : Host.Outcome State Fault Refusal :=
  s.commit (Instr.tsdec raw tag).opcode do
    let v ← s.takeValue raw tag
    let (a, q) ← tsof v
    return (s.setOpa a).setOpb q

end Sys2Proof.Machine
end

