-- ==== Sys2Proof/Machine/Scalar.lean ====
section
/-! DEFINITION. The Boolean, SignedInteger, UnsignedInteger and FloatingPoint codecs (41_scalar_codecs.md). -/

namespace Sys2Proof.Machine

/-! Boolean. -/

/-- `boolval(op)` (41_scalar_codecs.md R101). -/
def boolval (o : Operand) : Except ErrorCode (List Byte) :=
  if o.kind = Kind.none then .ok []
  else if o.kind = Kind.bool then (if o.val ≠ 0 then .ok [0x0F] else .ok [0x00])
  else .error .typeMismatch

/-- `boolof(v)` (41_scalar_codecs.md R103). -/
def boolof : List Byte → Except ErrorCode Operand
  | [] => .ok .ofNone
  | [b] => .ok (.ofBool (b != 0x00))
  | _ => .error .badValueLength

/-- BOOLENC (41_scalar_codecs.md R102). -/
def execBoolenc (raw : Bool) (tag : Byte) (s : State) : Host.Outcome State Fault Refusal :=
  s.commit (Instr.boolenc raw tag).opcode do
    let v ← boolval s.opa
    s.emitValue raw tag v

/-- BOOLDEC (41_scalar_codecs.md R104). -/
def execBooldec (raw : Bool) (tag : Byte) (s : State) : Host.Outcome State Fault Refusal :=
  s.commit (Instr.booldec raw tag).opcode do
    let v ← s.takeValue raw tag
    let r ← boolof v
    return s.setOpa r

/-! SignedInteger. -/

/-- `swidth(n)`: the narrowest of 1, 2, 4, 8 bytes (41_scalar_codecs.md R105). -/
def swidth (n : Int) : Nat :=
  if -2 ^ 7 ≤ n ∧ n ≤ 2 ^ 7 - 1 then 1
  else if -2 ^ 15 ≤ n ∧ n ≤ 2 ^ 15 - 1 then 2
  else if -2 ^ 31 ≤ n ∧ n ≤ 2 ^ 31 - 1 then 4
  else 8

/-- `sintval(op)` (41_scalar_codecs.md R105). -/
def sintval (o : Operand) : Except ErrorCode (List Byte) := do
  let n ← o.readInt
  let w := swidth n
  return be w (n % 2 ^ (8 * w)).toNat

/-- SINTENC (41_scalar_codecs.md R106). -/
def execSintenc (raw : Bool) (tag : Byte) (s : State) : Host.Outcome State Fault Refusal :=
  s.commit (Instr.sintenc raw tag).opcode do
    let v ← sintval s.opa
    s.emitValue raw tag v

/-- The operand of a SignedInteger value portion, by its length alone (41_scalar_codecs.md R107, R116). -/
def sintof (v : List Byte) : Except ErrorCode Operand :=
  if v.length ≠ 1 ∧ v.length ≠ 2 ∧ v.length ≠ 4 ∧ v.length ≠ 8 then .error .badValueLength
  else .ok (.ofInt (sbe v))

/-- SINTDEC (41_scalar_codecs.md R107). -/
def execSintdec (raw : Bool) (tag : Byte) (s : State) : Host.Outcome State Fault Refusal :=
  s.commit (Instr.sintdec raw tag).opcode do
    let v ← s.takeValue raw tag
    let r ← sintof v
    return s.setOpa r

/-! UnsignedInteger. -/

/-- `uintval(op)` (41_scalar_codecs.md R108). -/
def uintval (o : Operand) : Except ErrorCode (List Byte) := do
  let n ← o.readInt
  if n < 0 then .error .rangeUnsignedNegative
  else if n > 2 ^ 32 - 1 then .error .rangeUnsignedTooLarge
  else if n ≤ 255 then return be 1 n.toNat
  else if n ≤ 65535 then return be 2 n.toNat
  else return be 4 n.toNat

/-- UINTENC (41_scalar_codecs.md R109). -/
def execUintenc (raw : Bool) (tag : Byte) (s : State) : Host.Outcome State Fault Refusal :=
  s.commit (Instr.uintenc raw tag).opcode do
    let v ← uintval s.opa
    s.emitValue raw tag v

/-- The operand of an UnsignedInteger value portion, by its length alone (41_scalar_codecs.md R110, R116). -/
def uintof (v : List Byte) : Except ErrorCode Operand :=
  if v.length ≠ 1 ∧ v.length ≠ 2 ∧ v.length ≠ 4 then .error .badValueLength
  else .ok (.ofInt (ube v))

/-- UINTDEC (41_scalar_codecs.md R110). -/
def execUintdec (raw : Bool) (tag : Byte) (s : State) : Host.Outcome State Fault Refusal :=
  s.commit (Instr.uintdec raw tag).opcode do
    let v ← s.takeValue raw tag
    let r ← uintof v
    return s.setOpa r

/-! FloatingPoint. -/

/-- `disc(PREC)`: SINGLE_DISC or the parameter DOUBLE_DISC (41_scalar_codecs.md R111; 00_scope.md R5). -/
def disc (p : Config.Params) : Prec → Byte
  | .single => 0x08
  | .double => p.doubleDisc

/-- `fltval(op, PREC)` (41_scalar_codecs.md R111). -/
def fltval (p : Config.Params) (prec : Prec) (o : Operand) : Except ErrorCode (List Byte) :=
  match prec with
  | .single => do
    let bits ← o.readFloat32
    return disc p .single :: be 4 bits.toNat
  | .double => do
    let bits ← o.readFloat64
    return disc p .double :: be 8 bits.toNat

/-- `fltof(v, PREC)` (41_scalar_codecs.md R111). -/
def fltof (p : Config.Params) (prec : Prec) (v : List Byte) : Except ErrorCode Operand :=
  match v with
  | [] => .error .badValueLength
  | d :: bytes =>
    if d ≠ disc p prec then .error .wrongFloatDisc
    else
      match prec with
      | .single =>
        if bytes.length ≠ 4 then .error .badValueLength
        else .ok (.ofFloat32 (BitVec.ofNat 32 (ube bytes)))
      | .double =>
        if bytes.length ≠ 8 then .error .badValueLength
        else .ok (.ofFloat64 (BitVec.ofNat 64 (ube bytes)))

/-- FLTENC (41_scalar_codecs.md R112). -/
def execFltenc (prec : Prec) (raw : Bool) (tag : Byte) (s : State) : Host.Outcome State Fault Refusal :=
  s.commit (Instr.fltenc prec raw tag).opcode do
    let v ← fltval s.params prec s.opa
    s.emitValue raw tag v

/-- FLTDEC (41_scalar_codecs.md R113). -/
def execFltdec (prec : Prec) (raw : Bool) (tag : Byte) (s : State) : Host.Outcome State Fault Refusal :=
  s.commit (Instr.fltdec prec raw tag).opcode do
    let v ← s.takeValue raw tag
    let r ← fltof s.params prec v
    return s.setOpa r

end Sys2Proof.Machine
end

