-- ==== Sys2Proof/Machine/Tlv.lean ====
section
/-! DEFINITION. The TLV engine commands: LENENC, LENDEC, TLVENC, TLVDEC, WRAP (40_tlv_engine.md R84 to R88). -/

namespace Sys2Proof.Machine

/-- LENENC (40_tlv_engine.md R84). -/
def execLenenc (s : State) : Host.Outcome State Fault Refusal :=
  s.commit Instr.lenenc.opcode do
    let l ← s.opa.readInt
    let t ← berlen l
    s.append t

/-- LENDEC (40_tlv_engine.md R85). -/
def execLendec (s : State) : Host.Outcome State Fault Refusal :=
  s.commit Instr.lendec.opcode do
    let (l, q) ← parselen s.inBytes 0
    if q < s.inBytes.length then .error .extraTrailing
    else return s.setOpa (.ofInt l)

/-- TLVENC (40_tlv_engine.md R86). -/
def execTlvenc (tag : Byte) (s : State) : Host.Outcome State Fault Refusal :=
  s.commit (Instr.tlvenc tag).opcode do
    let t ← frame tag s.inBytes
    s.append t

/-- TLVDEC (40_tlv_engine.md R87). -/
def execTlvdec (tag : Byte) (s : State) : Host.Outcome State Fault Refusal :=
  s.commit (Instr.tlvdec tag).opcode do
    let v ← unframe s.inBytes tag
    return (s.replaceOut v).setOpa (.ofInt v.length)

/-- WRAP (40_tlv_engine.md R88): the framed bytes are longer than OUT's contents and overwrite them all. -/
def execWrap (tag : Byte) (s : State) : Host.Outcome State Fault Refusal :=
  s.commit (Instr.wrap tag).opcode do
    let t ← frame tag s.outBytes
    if s.cap < t.length then .error .capacity
    else return { s with output := s.output.write 0 t, outLen := BitVec.ofNat 32 t.length }

end Sys2Proof.Machine
end

