-- ==== Sys2Proof/Machine/Dispatch.lean ====
section
/-! DEFINITION. The meaning of each command, one arm per row of the opcode map (30_encoding.md R65). -/

namespace Sys2Proof.Machine

def exec (i : Instr) (s : State) : Host.Outcome State Fault Refusal :=
  match i with
  | .lenenc => Sys2Proof.Machine.execLenenc s
  | .lendec => Sys2Proof.Machine.execLendec s
  | .tlvenc tag => Sys2Proof.Machine.execTlvenc tag s
  | .tlvdec tag => Sys2Proof.Machine.execTlvdec tag s
  | .wrap tag => Sys2Proof.Machine.execWrap tag s
  | .boolenc raw tag => Sys2Proof.Machine.execBoolenc raw tag s
  | .booldec raw tag => Sys2Proof.Machine.execBooldec raw tag s
  | .sintenc raw tag => Sys2Proof.Machine.execSintenc raw tag s
  | .sintdec raw tag => Sys2Proof.Machine.execSintdec raw tag s
  | .uintenc raw tag => Sys2Proof.Machine.execUintenc raw tag s
  | .uintdec raw tag => Sys2Proof.Machine.execUintdec raw tag s
  | .fltenc prec raw tag => Sys2Proof.Machine.execFltenc prec raw tag s
  | .fltdec prec raw tag => Sys2Proof.Machine.execFltdec prec raw tag s
  | .qualenc raw tag => Sys2Proof.Machine.execQualenc raw tag s
  | .qualdec raw tag => Sys2Proof.Machine.execQualdec raw tag s
  | .tsenc raw tag => Sys2Proof.Machine.execTsenc raw tag s
  | .tsdec raw tag => Sys2Proof.Machine.execTsdec raw tag s
  | .clrout => Sys2Proof.Machine.execClrout s
  | .clrst => Sys2Proof.Machine.execClrst s
  | .movoi => Sys2Proof.Machine.execMovoi s

end Sys2Proof.Machine
end

