-- ==== Sys2Proof/Machine/Port.lean ====
section
/-! DEFINITION. The host port: what one host access does (20_memory.md R44 to R48; 70_reset_and_hazards.md R180, R181,
R189). -/

namespace Sys2Proof.Machine

/-- The number of the CMD register (20_memory.md R44). -/
def cmdReg : BitVec 4 := 0

/-- A CMD write of word `w` (10_state.md R23): the command it decodes to, or ILLEGAL_COMMAND with the word's own
bits 7:0 in LASTOP (30_encoding.md R67; 60_exceptions.md R165). -/
def runCommand (w : Word) (s : State) : Host.Outcome State Fault Refusal :=
  match decode w with
  | .ok i => exec i s
  | .error _ => .next (s.raiseError (opField w) .illegalCommand)

/-- What a host read of port register `n` returns, zero-extended (20_memory.md R44). -/
def State.readReg (s : State) (n : BitVec 4) : DWord :=
  match n with
  | 0 => 0
  | 1 => s.status.word.setWidth 64
  | 2 => s.opa.kind.setWidth 64
  | 3 => s.opa.val
  | 4 => s.opb.kind.setWidth 64
  | 5 => s.opb.val
  | 6 => s.inLen.setWidth 64
  | 7 => s.outLen.setWidth 64
  | 8 => s.params.bufCap.setWidth 64
  | _ => 0

/-- A host write of IN_LEN: ignored above BUF_CAP (20_memory.md R46). -/
def State.writeInLen (s : State) (v : Word) : State :=
  if v.toNat ≤ s.cap then { s with inLen := v } else s

/-- A host write of port register `n` (20_memory.md R44): of `v` the register's width counts (log entry 8). -/
def writeRegister (n : BitVec 4) (v : DWord) (s : State) : Host.Outcome State Fault Refusal :=
  match n with
  | 0 => runCommand (v.setWidth 32) s
  | 2 => .next { s with opa := { s.opa with kind := v.setWidth 4 } }
  | 3 => .next { s with opa := { s.opa with val := v } }
  | 4 => .next { s with opb := { s.opb with kind := v.setWidth 4 } }
  | 5 => .next { s with opb := { s.opb with val := v } }
  | 6 => .next (s.writeInLen (v.setWidth 32))
  | _ => .next s

/-- `in_write(i, b)` (20_memory.md R45): ignored at and above BUF_CAP; IN_LEN keeps its value. -/
def State.inWrite (s : State) (i : Nat) (b : Byte) : State :=
  if i < s.cap then { s with input := s.input.write i [b] } else s

/-- `in_read(i)` (20_memory.md R45): 0x00 at and above BUF_CAP. -/
def State.inRead (s : State) (i : Nat) : Byte := if i < s.cap then s.inByte i else 0x00

/-- `out_read(i)` (20_memory.md R45): 0x00 at and above BUF_CAP. -/
def State.outRead (s : State) (i : Nat) : Byte := if i < s.cap then s.outByte i else 0x00

/-- Reset (70_reset_and_hazards.md R181; 10_state.md R27): every register at its reset value, the bytes of IN and OUT
unspecified anew. The parameters stay (10_state.md R18), and the host's further accesses do (log entry 10). -/
def State.hostReset (s : State) : State :=
  { State.resetWith s.params with
    input := s.input.forget
    output := s.output.forget
    pending := s.pending }

/-- One host access (70_reset_and_hazards.md R189). A read hands its value back and changes nothing else (20_memory.md
R48); `s.reply` is `none` on entry. -/
def hostAccess (a : HostAction) (s : State) : Host.Outcome State Fault Refusal :=
  match a with
  | .writeReg n v => writeRegister n v s
  | .readReg n => .next { s with reply := some (s.readReg n) }
  | .inWrite i b => .next (s.inWrite i b)
  | .inRead i => .next { s with reply := some ((s.inRead i).setWidth 64) }
  | .outRead i => .next { s with reply := some ((s.outRead i).setWidth 64) }
  | .reset => .next s.hostReset

/-- The next host access taken from the port, and the state it finds: the access gone from `pending`, no reply yet
(20_memory.md R50; log entries 1, 3). -/
def State.accepted (s : State) (rest : List HostAction) : State :=
  { s with pending := rest, reply := none }

end Sys2Proof.Machine
end

