-- ==== Sys2Proof/Machine/Step.lean ====
section
/-! DEFINITION. One step: the port takes the host's next access and the block carries it out whole (20_memory.md R49,
R50). With no access pending the block does nothing (70_reset_and_hazards.md R189; log entry 2). -/

namespace Sys2Proof.Machine

def step (s : State) : Host.Outcome State Fault Refusal :=
  match s.pending with
  | [] => .next s
  | a :: rest => hostAccess a (s.accepted rest)

/-- The host's next access is a write of the table word to CMD (10_state.md R23; log entry 1). -/
def State.withFetchWord (s : State) (nbits w : Nat) : State :=
  { s with pending := .writeReg cmdReg ((tableWord nbits w).setWidth 64) :: s.pending }

end Sys2Proof.Machine
end

