-- ==== Sys2Proof/Safety.lean ====
section
/-! DEFINITION. What counts as a safe state, and the words the statements use. Each is written from the spec on its
own, in other terms than the machine's operations, so that a statement compares two readings of one rule. -/

namespace Sys2Proof.Safety

open Sys2Proof.Machine

/-! Codes and the invariant. -/

/-- The codes of 60_exceptions.md R161 that some command writes; RANGE_SIGNED (0x22) and INVARIANT (0x40) are reserved. -/
def writtenCodes : List Byte :=
  [0x00, 0x10, 0x20, 0x21, 0x23, 0x24, 0x25, 0x26, 0x30, 0x31, 0x32, 0x33, 0x34, 0x35, 0x36, 0x50, 0x51]

/-- A state the block can be in: the bounds of 10_state.md R10 and 00_scope.md R5, buffers in canonical form, IN
specified only inside its capacity, OUT specified exactly below OUT_LEN (10_state.md R17, 20_memory.md R41), CODE a
written code (60_exceptions.md R161), and STICKY set whenever CODE is an error (10_state.md R22). -/
structure Inv (s : State) : Prop where
  params_ok : s.params.ok = true
  input_wf : s.input.wf = true
  output_wf : s.output.wf = true
  input_inside : ∀ a, s.cap ≤ a → s.input.lookup a = none
  output_exact : ∀ a, (s.output.lookup a).isSome = true ↔ a < s.outLen.toNat
  inLen_le : s.inLen.toNat ≤ s.cap
  outLen_le : s.outLen.toNat ≤ s.cap
  code_written : s.status.code ∈ writtenCodes
  sticky_on_error : s.status.code ≠ 0 → s.status.sticky = true

/-- The framing errors of 40_tlv_engine.md R83: WRONG_TAG, TRUNCATED, MALFORMED_LENGTH, INCOMPLETE, EXTRA_TRAILING. -/
def framingCodes : List Byte := [0x30, 0x31, 0x32, 0x33, 0x34]

/-- The error codes a command may raise: the "raised by" column of 60_exceptions.md R161, read by command. -/
def mayRaise : Instr → List Byte
  | .lenenc => [0x10, 0x24, 0x51]
  | .lendec => [0x31, 0x32, 0x34]
  | .tlvenc _ => [0x51]
  | .tlvdec _ => framingCodes
  | .wrap _ => [0x51]
  | .boolenc _ _ => [0x10, 0x51]
  | .booldec raw _ => (if raw then [] else framingCodes) ++ [0x36]
  | .sintenc _ _ => [0x10, 0x51]
  | .sintdec raw _ => (if raw then [] else framingCodes) ++ [0x36]
  | .uintenc _ _ => [0x10, 0x20, 0x21, 0x51]
  | .uintdec raw _ => (if raw then [] else framingCodes) ++ [0x36]
  | .fltenc _ _ _ => [0x10, 0x51]
  | .fltdec _ raw _ => (if raw then [] else framingCodes) ++ [0x35, 0x36]
  | .qualenc _ _ => [0x10, 0x23, 0x51]
  | .qualdec raw _ => (if raw then [] else framingCodes) ++ [0x26, 0x36]
  | .tsenc _ _ => [0x10, 0x23, 0x25, 0x51]
  | .tsdec raw _ => (if raw then [] else framingCodes) ++ [0x26, 0x36]
  | .clrout | .clrst | .movoi => []

/-! What a command leaves alone. -/

/-- The state after command `op` ended in error `code` (60_exceptions.md R162): STATUS is written, nothing else. -/
def errored (s : State) (op code : Byte) : State :=
  { s with status := { code := code, lastop := op, sticky := true } }

/-- The state the port leaves for an access once it has taken it: the access gone, no reply yet. -/
def taken (s : State) (rest : List HostAction) : State := { s with pending := rest, reply := none }

/-- IN_LEN and every byte of IN are as before. -/
def KeepsIn (s t : State) : Prop := t.inLen = s.inLen ∧ ∀ a, t.inByte a = s.inByte a

/-- OUT_LEN and every byte of OUT are as before. -/
def KeepsOut (s t : State) : Prop := t.outLen = s.outLen ∧ ∀ a, t.outByte a = s.outByte a

/-- Command `op` completed: CODE 0x00, LASTOP, STICKY as before (60_exceptions.md R162, 10_state.md R22); the
parameters and the port are as before. -/
structure Ends (s t : State) (op : Byte) : Prop where
  status : t.status = { code := 0x00, lastop := op, sticky := s.status.sticky }
  params : t.params = s.params
  pending : t.pending = s.pending
  reply : t.reply = s.reply

/-- Command `op` appended `bs` to OUT at OUT_LEN and changed nothing else (00_scope.md section 4, Append). DEDUCED: that
the bytes of OUT above the new OUT_LEN are among what it leaves (`kept`; log entry 7). -/
structure Appended (s t : State) (op : Byte) (bs : List Byte) : Prop where
  ends : Ends s t op
  opa : t.opa = s.opa
  opb : t.opb = s.opb
  input : KeepsIn s t
  outLen : t.outLen.toNat = s.outLen.toNat + bs.length
  written : ∀ k (h : k < bs.length), t.outByte (s.outLen.toNat + k) = bs[k]
  kept : ∀ a, a < s.outLen.toNat ∨ s.outLen.toNat + bs.length ≤ a → t.outByte a = s.outByte a

/-- Command `op` wrote `a` to OPA and `b` to OPB and changed nothing else. -/
structure SetOperands (s t : State) (op : Byte) (a b : Operand) : Prop where
  ends : Ends s t op
  opa : t.opa = a
  opb : t.opb = b
  input : KeepsIn s t
  output : KeepsOut s t

/-- From `s`, command `i` appends `bs` where it fits below BUF_CAP, and otherwise ends in CAPACITY
(41_scalar_codecs.md R100). -/
def EmitsBytes (i : Instr) (op : Byte) (s : State) (bs : List Byte) : Prop :=
  (s.outLen.toNat + bs.length ≤ s.cap → ∃ t, exec i s = .next t ∧ Appended s t op bs) ∧
  (s.cap < s.outLen.toNat + bs.length → exec i s = .next (errored s op 0x51))

/-! Byte sequences on the wire. -/

/-- IN[0..IN_LEN) is `bs`. -/
def InHolds (s : State) (bs : List Byte) : Prop :=
  bs.length = s.inLen.toNat ∧ ∀ k (h : k < bs.length), s.inByte k = bs[k]

/-- OUT[0..OUT_LEN) is `bs`. -/
def OutHolds (s : State) (bs : List Byte) : Prop :=
  bs.length = s.outLen.toNat ∧ ∀ k (h : k < bs.length), s.outByte k = bs[k]

/-- The fewest length bytes of `n <= 2^32 - 1` among the forms with 0, 1, 2, 4 length bytes (40_tlv_engine.md R80). -/
def shortestLength (n : Nat) : List Byte :=
  if n ≤ 127 then [BitVec.ofNat 8 n]
  else if n ≤ 255 then [0x81, BitVec.ofNat 8 n]
  else if n ≤ 65535 then [0x82, BitVec.ofNat 8 (n / 256), BitVec.ofNat 8 n]
  else [0x84, BitVec.ofNat 8 (n / 16777216), BitVec.ofNat 8 (n / 65536), BitVec.ofNat 8 (n / 256), BitVec.ofNat 8 n]

/-- `lb` is a length field of value `n`, minimal or not (40_tlv_engine.md R81). -/
def LengthField (lb : List Byte) (n : Nat) : Prop :=
  match lb with
  | [b] => b.toNat ≤ 127 ∧ n = b.toNat
  | [c, b] => c = 0x81 ∧ n = b.toNat
  | [c, b1, b0] => c = 0x82 ∧ n = (b1 ++ b0).toNat
  | [c, b3, b2, b1, b0] => c = 0x84 ∧ n = (b3 ++ b2 ++ b1 ++ b0).toNat
  | _ => False

/-- `bs` is exactly one TLV with tag `tag` and value `v` (40_tlv_engine.md R83). -/
def IsTlv (tag : Byte) (v bs : List Byte) : Prop :=
  ∃ lb, LengthField lb v.length ∧ bs = tag :: (lb ++ v)

/-- IN holds the value portion `v`: alone if RAW, else as one TLV with tag TAG (41_scalar_codecs.md R100). -/
def TakesValue (raw : Bool) (tag : Byte) (s : State) (v : List Byte) : Prop :=
  ∃ bs, InHolds s bs ∧ if raw then bs = v else IsTlv tag v bs

/-- A value portion of at most 127 bytes on the wire: alone if RAW, else after TAG and the short-form length. -/
def wire (raw : Bool) (tag : Byte) (v : List Byte) : List Byte :=
  if raw then v else tag :: BitVec.ofNat 8 v.length :: v

/-- What is wrong with `bs` as one TLV with tag `tag`, by the first check that fails (60_exceptions.md R164 point 3). -/
def FramingFault (tag : Byte) (bs : List Byte) (code : Byte) : Prop :=
  (bs = [] ∧ code = 0x31) ∨
  (∃ b r, bs = b :: r ∧ b ≠ tag ∧ code = 0x30) ∨
  (bs = [tag] ∧ code = 0x31) ∨
  (∃ c r, bs = tag :: c :: r ∧ 0x80 ≤ c.toNat ∧ c ∉ [0x81#8, 0x82#8, 0x84#8] ∧ code = 0x32) ∨
  (∃ c r, bs = tag :: c :: r ∧ c ∈ [0x81#8, 0x82#8, 0x84#8] ∧ r.length < c.toNat - 0x80 ∧ code = 0x31) ∨
  (∃ lb r n, bs = tag :: (lb ++ r) ∧ LengthField lb n ∧ r.length < n ∧ code = 0x33) ∨
  (∃ lb r n, bs = tag :: (lb ++ r) ∧ LengthField lb n ∧ n < r.length ∧ code = 0x34)

/-! Quality. -/

/-- Byte `k` of a 64-bit payload, byte 0 the least significant. -/
def payloadByte (v : DWord) (k : Nat) : Byte := v.extractLsb' (8 * k) 8

/-- The accuracies a Quality may have (42_quality_timestamp.md R130). -/
def AccuracyOk (acc : Nat) : Prop := acc ≤ 24 ∨ acc = 31

/-- The wire byte of a QUALITY payload with a valid accuracy: LSK, CF, CNS, then ACC's five bits, from the top
(42_quality_timestamp.md R130). -/
def qualityWire (v : DWord) : Byte :=
  v.extractLsb' 0 1 ++ v.extractLsb' 1 1 ++ v.extractLsb' 2 1 ++ v.extractLsb' 8 5

/-- The QUALITY payload of a wire byte, its reserved bits 0 (10_state.md R15; 42_quality_timestamp.md R130). -/
def qualityPayload (b : Byte) : DWord :=
  (0 : BitVec 51) ++ b.extractLsb' 0 5 ++ (0 : BitVec 5) ++ b.extractLsb' 5 1 ++ b.extractLsb' 6 1 ++ b.extractLsb' 7 1

/-! binary64 values (PRESUMED layout, log entry 9). -/

/-- The pattern is neither an infinity nor a NaN. -/
def F64Finite (b : DWord) : Prop := (b.extractLsb' 52 11).toNat ≠ 2047

/-- The rational value of a finite binary64 pattern. -/
def f64Value (b : DWord) : ℚ :=
  (if b[63] then -1 else 1) *
  (if (b.extractLsb' 52 11).toNat = 0 then ((b.extractLsb' 0 52).toNat : ℚ) / 2 ^ 1074
   else ((2 ^ 52 + (b.extractLsb' 0 52).toNat : ℕ) : ℚ) * 2 ^ (b.extractLsb' 52 11).toNat / 2 ^ 1075)

/-- `n` is `x` rounded to the nearest integer, ties to even (42_quality_timestamp.md R134). -/
def NearestEven (x : ℚ) (n : ℕ) : Prop := |x - n| ≤ 1 / 2 ∧ (|x - n| = 1 / 2 → Even n)

/-- `b` is the binary64 nearest to `x >= 0`, ties to the even significand, and not -0.0 (42_quality_timestamp.md R137, R138). -/
def NearestF64 (x : ℚ) (b : DWord) : Prop :=
  F64Finite b ∧ b[63] = false ∧
  (∀ w, F64Finite w → |f64Value b - x| ≤ |f64Value w - x|) ∧
  (∀ w, F64Finite w → f64Value w ≠ f64Value b → |f64Value w - x| = |f64Value b - x| → b[0] = false)

/-- The seconds a Timestamp value portion stands for, its Quality byte aside (42_quality_timestamp.md R133). -/
def timestampValue (s3 s2 s1 s0 f2 f1 f0 : Byte) : ℚ :=
  ((s3 ++ s2 ++ s1 ++ s0).toNat : ℚ) + ((f2 ++ f1 ++ f0).toNat : ℚ) / 2 ^ 24

/-- The Timestamp's SEC and FRAC on the wire (42_quality_timestamp.md R133). -/
def timestampWire (sec frac : Nat) : List Byte :=
  [BitVec.ofNat 8 (sec / 16777216), BitVec.ofNat 8 (sec / 65536), BitVec.ofNat 8 (sec / 256), BitVec.ofNat 8 sec,
   BitVec.ofNat 8 (frac / 65536), BitVec.ofNat 8 (frac / 256), BitVec.ofNat 8 frac]

/-! What a command can see. -/

/-- Two states that a command cannot tell apart: the same registers, and the same bytes of IN below IN_LEN and of OUT
below OUT_LEN (20_memory.md R41). -/
structure SameVisible (s t : State) : Prop where
  opa : t.opa = s.opa
  opb : t.opb = s.opb
  inLen : t.inLen = s.inLen
  outLen : t.outLen = s.outLen
  status : t.status = s.status
  params : t.params = s.params
  pending : t.pending = s.pending
  reply : t.reply = s.reply
  input : ∀ a, a < s.inLen.toNat → t.inByte a = s.inByte a
  output : ∀ a, a < s.outLen.toNat → t.outByte a = s.outByte a

/-- Encoding with `enc`, moving OUT to IN, and decoding with `dec` all complete and leave `o` in OPA. -/
def RoundTrips (enc dec : Instr) (s : State) (o : Operand) : Prop :=
  ∃ s1 s2 t, exec enc s = .next s1 ∧ exec .movoi s1 = .next s2 ∧ exec dec s2 = .next t ∧
    s1.status.code = 0 ∧ t.status.code = 0 ∧ t.opa = o

end Sys2Proof.Safety
end

