-- ==== Sys2Proof/Certificates/Slice0/Obligations.lean ====
section
/-! DEFINITION. The statements for the provers, from the numbered rules of spec/. -/

open Sys2Proof Sys2Proof.Machine Sys2Proof.Safety

/-! ## Encoding (30_encoding.md) -/

/-- Decoding the word of a well-formed command gives the command back, every operand at every value (R60, R63, R65,
R66). -/
def Obligations.DecodeOfEncodeIsIdentity : Prop :=
  ∀ i : Instr, i.wf = true → decode (encode i) = .ok i

/-- Each word has at most one meaning: a word that decodes is the word of the command it decodes to, and that command is
well formed (R60, R66, R69). -/
def Obligations.EncodeOfDecodeIsIdentity : Prop :=
  ∀ (w : Word) (i : Instr), decode w = .ok i → encode i = w ∧ i.wf = true

/-- The decoder accepts a word exactly when R66's `legal` holds of it. -/
def Obligations.DecoderAcceptsExactlyLegalWords : Prop :=
  ∀ w : Word, (∃ i, decode w = .ok i) ↔ legal w = true

/-- The words R70 writes out decode to the commands R70 writes beside them. -/
def Obligations.SampleWordsDecode : Prop :=
  decode 0x00008003 = .ok (.tlvenc 0x80) ∧
  decode 0x00008310 = .ok (.boolenc false 0x83) ∧
  decode 0x00010012 = .ok (.sintenc true 0x00) ∧
  decode 0x00028716 = .ok (.fltenc .double false 0x87) ∧
  decode 0x00010017 = .ok (.fltdec .single true 0x00) ∧
  decode 0x00006105 = .ok (.wrap 0x61) ∧
  decode 0x00000030 = .ok .clrout

/-! ## The port and the step (10_state.md, 20_memory.md, 70_reset_and_hazards.md) -/

/-- A step whose next host access writes to CMD a word that decodes to `i` runs `i` on the state the port leaves: the
access gone from `pending`, `reply` empty (both the model's own fields, log entries 1, 3). -/
def Obligations.StepRunsDecodedCommand : Prop :=
  ∀ (s : State) (v : DWord) (rest : List HostAction) (i : Instr),
    s.pending = .writeReg 0 v :: rest → decode (v.setWidth 32) = .ok i →
    step s = exec i (taken s rest)

/-- R67: a CMD write of an illegal word raises ILLEGAL_COMMAND and changes no state except STATUS; the all-zero word is
illegal. -/
def Obligations.IllegalWordWritesStatusOnly : Prop :=
  (∀ (s : State) (v : DWord) (rest : List HostAction),
    s.pending = .writeReg 0 v :: rest → legal (v.setWidth 32) = false →
    step s = .next (errored (taken s rest) (v.setWidth 8) 0x50)) ∧
  legal 0 = false

/-- The model's choice (log entry 2), from R189 "The block never initiates an interaction": with no host access pending
a step changes nothing. -/
def Obligations.EmptyPortLeavesStateAlone : Prop :=
  ∀ s : State, s.pending = [] → step s = .next s

/-- R21: every write to CMD sets LASTOP to bits 7:0 of the word, legal or not. -/
def Obligations.EveryCmdWriteSetsLastop : Prop :=
  ∀ (s : State) (v : DWord) (rest : List HostAction), s.pending = .writeReg 0 v :: rest →
    ∃ t, step s = .next t ∧ t.status.lastop = v.extractLsb' 0 8

/-- R188, R190: no command hangs, and a finite sequence of host accesses ends: after as many steps as accesses are
pending, the machine stands in a next state with none pending. -/
def Obligations.EveryHostSequenceEnds : Prop :=
  ∀ s : State, ∃ t, Host.Core.run Sys2Proof.core s.pending.length s = .next t ∧ t.pending = []

/-- R162, the commit rule: a command that ends with a nonzero CODE wrote CODE, LASTOP and STICKY and nothing else; one
that ends with CODE 0x00 wrote LASTOP, and STICKY is as it was but for CLRST, which clears it. -/
def Obligations.ErrorWritesStatusOnly : Prop :=
  ∀ (i : Instr) (s t : State), exec i s = .next t →
    (t.status.code ≠ 0 → t = errored s i.opcode t.status.code) ∧
    (t.status.code = 0 → t.status.lastop = i.opcode ∧
      t.status.sticky = (if i = .clrst then false else s.status.sticky))

/-- R22: STICKY after a step. A CMD write that ends in an error sets it; CLRST (word 0x31) and reset clear it; any
other access leaves it. -/
def Obligations.StickyBitRule : Prop :=
  ∀ (s t : State) (a : HostAction) (rest : List HostAction), s.pending = a :: rest → step s = .next t →
    t.status.sticky =
      match a with
      | .reset => false
      | .writeReg n v =>
        if n = 0 then
          if t.status.code ≠ 0 then true
          else if (v.setWidth 32 : Word) = 0x31 then false
          else s.status.sticky
        else s.status.sticky
      | _ => s.status.sticky

/-- R161: a command writes CODE 0x00 or a code of the rows whose "raised by" names it (framing errors in framed decodes
only). So RANGE_SIGNED and INVARIANT are never written, and ILLEGAL_COMMAND by no legal word. -/
def Obligations.CommandRaisesListedCodesOnly : Prop :=
  ∀ (i : Instr) (s t : State), exec i s = .next t →
    t.status.code = 0 ∨ t.status.code ∈ mayRaise i

/-- Every step keeps the invariant of `Safety.Inv`: lengths within BUF_CAP (R10), buffers in canonical form and inside
their capacity, OUT specified exactly below OUT_LEN (R17, R41), CODE a written code (R161), STICKY set with it (R22). -/
def Obligations.StepKeepsInvariant : Prop :=
  ∀ s t : State, Inv s → step s = .next t → Inv t

/-- The state after reset (R27) satisfies the invariant, for every choice of the parameters that R5 allows; `State.reset`
takes the reference values, the model's choice (log entries 4, 5). -/
def Obligations.ResetSatisfiesInvariant : Prop :=
  (∀ p : Config.Params, p.ok = true → Inv (State.resetWith p)) ∧ Inv State.reset

/-- R18: CAP reads BUF_CAP, and nothing the host does changes it (nor DOUBLE_DISC): no write, no command, no reset. -/
def Obligations.ParametersNeverChange : Prop :=
  (∀ s t : State, step s = .next t → t.params = s.params) ∧
  (∀ (s : State) (rest : List HostAction), s.pending = .readReg 8 :: rest →
    step s = .next { taken s rest with reply := some (s.params.bufCap.setWidth 64) })

/-- R41, and the spec's own inference R26: what a command does depends on nothing of IN at or above IN_LEN and nothing
of OUT at or above OUT_LEN. -/
def Obligations.CommandIgnoresBytesBeyondLengths : Prop :=
  ∀ (i : Instr) (s s' t t' : State), SameVisible s s' → exec i s = .next t → exec i s' = .next t' →
    SameVisible t t'

/-- R12: a command other than QUALENC, QUALDEC, TSENC, TSDEC neither reads nor writes OPB. -/
def Obligations.OpbServesQualityOnly : Prop :=
  ∀ (i : Instr) (s t : State) (o : Operand), i.opcode ∉ [0x20#8, 0x21#8, 0x22#8, 0x23#8] → exec i s = .next t →
    t.opb = s.opb ∧ exec i { s with opb := o } = .next { t with opb := o }

/-- R44, the host-read column: the value each port register hands back, and that the read changes nothing else. -/
def Obligations.RegisterReadMap : Prop :=
  ∀ (s : State) (n : BitVec 4) (rest : List HostAction), s.pending = .readReg n :: rest →
    step s = .next { taken s rest with reply := some (
      if n = 1 then
        (BitVec.ofBool s.status.sticky ++ (0 : BitVec 15) ++ s.status.lastop ++ s.status.code : BitVec 32).setWidth 64
      else if n = 2 then s.opa.kind.setWidth 64
      else if n = 3 then s.opa.val
      else if n = 4 then s.opb.kind.setWidth 64
      else if n = 5 then s.opb.val
      else if n = 6 then s.inLen.setWidth 64
      else if n = 7 then s.outLen.setWidth 64
      else if n = 8 then s.params.bufCap.setWidth 64
      else 0) }

/-- R44, the host-write column, CMD and IN_LEN aside: OPA and OPB take what is written, every other register ignores it.
That a register takes the low bits of a 64-bit value is the model's form of a whole-register access (log entry 8). -/
def Obligations.RegisterWriteMap : Prop :=
  ∀ (s : State) (n : BitVec 4) (v : DWord) (rest : List HostAction),
    s.pending = .writeReg n v :: rest → n ≠ 0 → n ≠ 6 →
    step s = .next (
      if n = 2 then { taken s rest with opa := { kind := v.extractLsb' 0 4, val := s.opa.val } }
      else if n = 3 then { taken s rest with opa := { kind := s.opa.kind, val := v } }
      else if n = 4 then { taken s rest with opb := { kind := v.extractLsb' 0 4, val := s.opb.val } }
      else if n = 5 then { taken s rest with opb := { kind := s.opb.kind, val := v } }
      else taken s rest)

/-- R45: `in_write`, `in_read` and `out_read` below BUF_CAP and at or above it; no host access other than a command or
reset changes OUT. -/
def Obligations.HostBufferAccess : Prop :=
  (∀ (s : State) (i : Nat) (b : Byte) (rest : List HostAction), s.pending = .inWrite i b :: rest →
    ∃ m, step s = .next { taken s rest with input := m } ∧
      (i < s.cap → ∀ a, ({ taken s rest with input := m } : State).inByte a = if a = i then b else s.inByte a) ∧
      (s.cap ≤ i → m = s.input)) ∧
  (∀ (s : State) (i : Nat) (rest : List HostAction), s.pending = .inRead i :: rest →
    step s = .next { taken s rest with
      reply := some ((if i < s.cap then s.inByte i else 0x00 : Byte).setWidth 64) }) ∧
  (∀ (s : State) (i : Nat) (rest : List HostAction), s.pending = .outRead i :: rest →
    step s = .next { taken s rest with
      reply := some ((if i < s.cap then s.outByte i else 0x00 : Byte).setWidth 64) }) ∧
  (∀ (s t : State) (a : HostAction) (rest : List HostAction), s.pending = a :: rest → a ≠ .reset →
    (∀ v, a ≠ .writeReg 0 v) → step s = .next t → KeepsOut s t)

/-- R46: a host write of IN_LEN takes effect when the value is at most BUF_CAP and is ignored above it. That the value is
the low 32 bits of the 64 the port carries, the width of IN_LEN, is the model's choice (log entry 8). -/
def Obligations.InLenWriteGuard : Prop :=
  ∀ (s : State) (v : DWord) (rest : List HostAction), s.pending = .writeReg 6 v :: rest →
    step s = .next (if (v.setWidth 32 : Word).toNat ≤ s.cap then { taken s rest with inLen := v.setWidth 32 }
      else taken s rest)

/-- R48: a read hands back the same value when it is made again at once, and a write other than to CMD, made again at
once, changes nothing more. -/
def Obligations.RepeatedAccessChangesNothingMore : Prop :=
  ∀ (s t : State) (a : HostAction) (rest : List HostAction),
    s.pending = a :: a :: rest → a ≠ .reset → (∀ v, a ≠ .writeReg 0 v) → step s = .next t →
    t.pending = a :: rest ∧ step t = .next { t with pending := rest }

/-- R181: reset sets every register to its R27 value and leaves every byte of IN and OUT unspecified. -/
def Obligations.ResetAccessRestoresResetValues : Prop :=
  ∀ (s : State) (rest : List HostAction), s.pending = .reset :: rest →
    ∃ t, step s = .next t ∧
      t.opa = { kind := 0, val := 0 } ∧ t.opb = { kind := 0, val := 0 } ∧ t.inLen = 0 ∧ t.outLen = 0 ∧
      t.status = { code := 0x00, lastop := 0x00, sticky := false } ∧
      ∀ a, t.input.lookup a = none ∧ t.output.lookup a = none

/-- R27: the state after reset, whatever the parameters are, as fields and as the host reads it. -/
def Obligations.ResetStateOfR27 : Prop :=
  ∀ p : Config.Params,
    (State.resetWith p).opa = { kind := 0, val := 0 } ∧ (State.resetWith p).opb = { kind := 0, val := 0 } ∧
    (State.resetWith p).inLen = 0 ∧ (State.resetWith p).outLen = 0 ∧
    (∀ a, (State.resetWith p).input.lookup a = none ∧ (State.resetWith p).output.lookup a = none) ∧
    (State.resetWith p).readReg 0 = 0 ∧ (State.resetWith p).readReg 1 = 0 ∧
    (State.resetWith p).readReg 8 = p.bufCap.setWidth 64

/-! ## The TLV engine (40_tlv_engine.md) -/

/-- The spec's own inference R90 (from R80 to R83): a successful `unframe` returns as many bytes as the length field
says, and `unframe` undoes `frame` for every value of at most 2^32 - 1 bytes. -/
def Obligations.UnframeInvertsFrame : Prop :=
  (∀ (bs v : List Byte) (tag : Byte), unframe bs tag = .ok v → ∃ q, parselen bs 1 = .ok (v.length, q)) ∧
  (∀ (tag : Byte) (v : List Byte), v.length ≤ 2 ^ 32 - 1 →
    ∃ t, frame tag v = .ok t ∧ unframe t tag = .ok v)

/-- R83: `unframe` accepts exactly the byte sequences that are one TLV with the expected tag, and gives its value. -/
def Obligations.UnframeAcceptsExactlyOneTlv : Prop :=
  ∀ (bs v : List Byte) (tag : Byte), unframe bs tag = .ok v ↔ IsTlv tag v bs

/-- R80, R81: every length from 0 to 2^32 - 1 has length bytes, 1, 2, 3 or 5 of them, which parse back to it. -/
def Obligations.LengthBytesParseBack : Prop :=
  ∀ n : Nat, n ≤ 2 ^ 32 - 1 →
    ∃ t, berlen n = .ok t ∧ t.length ∈ [1, 2, 3, 5] ∧ parselen t 0 = .ok (n, t.length)

/-- R84: LENENC of an INT length from 0 to 2^32 - 1 appends its shortest length bytes, or ends in CAPACITY.
The bytes of OUT above what is appended keep their values: the model's choice, log entry 7. -/
def Obligations.LenencAppendsLength : Prop :=
  ∀ (s : State) (n : Nat), s.opa.kind = 2 → s.opa.val.toInt = n → n ≤ 2 ^ 32 - 1 →
    EmitsBytes .lenenc 0x01 s (shortestLength n)

/-- R85: LENDEC of an IN that is exactly one length field, minimal or not, puts its value in OPA as an INT. -/
def Obligations.LendecReadsLength : Prop :=
  ∀ (s : State) (lb : List Byte) (n : Nat), InHolds s lb → LengthField lb n →
    ∃ t, exec .lendec s = .next t ∧ SetOperands s t 0x02 { kind := 2, val := BitVec.ofNat 64 n } s.opb

/-- R85: LENDEC's errors: TRUNCATED, MALFORMED_LENGTH, EXTRA_TRAILING. -/
def Obligations.LendecRefusesOtherInput : Prop :=
  (∀ s, InHolds s [] → exec .lendec s = .next (errored s 0x02 0x31)) ∧
  (∀ s c r, InHolds s (c :: r) → 0x80 ≤ c.toNat → c ∉ [0x81#8, 0x82#8, 0x84#8] →
    exec .lendec s = .next (errored s 0x02 0x32)) ∧
  (∀ s c r, InHolds s (c :: r) → c ∈ [0x81#8, 0x82#8, 0x84#8] → r.length < c.toNat - 0x80 →
    exec .lendec s = .next (errored s 0x02 0x31)) ∧
  (∀ s lb r n, InHolds s (lb ++ r) → LengthField lb n → r ≠ [] → exec .lendec s = .next (errored s 0x02 0x34))

/-- R86: TLVENC appends TAG, the shortest length bytes of IN_LEN and the bytes of IN, or ends in CAPACITY.
The bytes of OUT above what is appended keep their values: the model's choice, log entry 7. -/
def Obligations.TlvencAppendsFramedInput : Prop :=
  ∀ (s : State) (tag : Byte) (v : List Byte), InHolds s v →
    EmitsBytes (.tlvenc tag) 0x03 s (tag :: (shortestLength v.length ++ v))

/-- R87: TLVDEC of an IN that is one TLV with tag TAG puts its value in OUT, replacing OUT's contents, and its length in
OPA; OPB and IN are as before. Every byte of OUT above the value is unspecified after it: U3, in the model's form that no
value is held there (log entry 7). -/
def Obligations.TlvdecReplacesOutput : Prop :=
  ∀ (s : State) (tag : Byte) (bs v : List Byte), InHolds s bs → IsTlv tag v bs →
    ∃ t, exec (.tlvdec tag) s = .next t ∧ Ends s t 0x04 ∧
      t.opa = { kind := 2, val := BitVec.ofNat 64 v.length } ∧ t.opb = s.opb ∧ KeepsIn s t ∧ OutHolds t v ∧
      ∀ a, v.length ≤ a → t.output.lookup a = none

/-- R88: WRAP rewrites OUT as TAG, the shortest length bytes of OUT_LEN and OUT's old contents where that fits below
BUF_CAP, and else ends in CAPACITY; it changes nothing else. That the bytes of OUT above the new contents keep their
values too, where U3 allows any, is the model's choice (log entry 7). -/
def Obligations.WrapFramesOutputInPlace : Prop :=
  ∀ (s : State) (tag : Byte) (b : List Byte), OutHolds s b →
    ((tag :: (shortestLength b.length ++ b)).length ≤ s.cap →
      ∃ t, exec (.wrap tag) s = .next t ∧ Ends s t 0x05 ∧ t.opa = s.opa ∧ t.opb = s.opb ∧ KeepsIn s t ∧
        OutHolds t (tag :: (shortestLength b.length ++ b)) ∧
        ∀ a, (tag :: (shortestLength b.length ++ b)).length ≤ a → t.outByte a = s.outByte a) ∧
    (s.cap < (tag :: (shortestLength b.length ++ b)).length →
      exec (.wrap tag) s = .next (errored s 0x05 0x51))

/-- R83, R164 point 3: an IN that is not one TLV with tag TAG makes TLVDEC and every framed value decode end in the
framing error of the first check that fails. -/
def Obligations.FramedDecodesReportFramingFault : Prop :=
  ∀ (s : State) (tag code : Byte) (bs : List Byte), InHolds s bs → FramingFault tag bs code →
    exec (.tlvdec tag) s = .next (errored s 0x04 code) ∧
    exec (.booldec false tag) s = .next (errored s 0x11 code) ∧
    exec (.sintdec false tag) s = .next (errored s 0x13 code) ∧
    exec (.uintdec false tag) s = .next (errored s 0x15 code) ∧
    (∀ prec, exec (.fltdec prec false tag) s = .next (errored s 0x17 code)) ∧
    exec (.qualdec false tag) s = .next (errored s 0x21 code) ∧
    exec (.tsdec false tag) s = .next (errored s 0x23 code)

/-! ## The scalar codecs (41_scalar_codecs.md) -/

/-- R101, R102: BOOLENC appends nothing for NONE, 0x0F for a BOOL with a nonzero payload, 0x00 for a BOOL with payload
0, framed or raw, or ends in CAPACITY. The bytes of OUT above what is appended keep their values: the model's choice,
log entry 7. -/
def Obligations.BoolencAppendsBoolean : Prop :=
  ∀ (s : State) (raw : Bool) (tag : Byte),
    (s.opa.kind = 0 → EmitsBytes (.boolenc raw tag) 0x10 s (wire raw tag [])) ∧
    (s.opa.kind = 1 → s.opa.val ≠ 0 → EmitsBytes (.boolenc raw tag) 0x10 s (wire raw tag [0x0F])) ∧
    (s.opa.kind = 1 → s.opa.val = 0 → EmitsBytes (.boolenc raw tag) 0x10 s (wire raw tag [0x00]))

/-- R103, R104: BOOLDEC reads an empty value as NONE and one byte as a BOOL, true for every nonzero byte. -/
def Obligations.BooldecReadsBoolean : Prop :=
  ∀ (s : State) (raw : Bool) (tag : Byte),
    (TakesValue raw tag s [] →
      ∃ t, exec (.booldec raw tag) s = .next t ∧ SetOperands s t 0x11 { kind := 0, val := 0 } s.opb) ∧
    (∀ b, TakesValue raw tag s [b] →
      ∃ t, exec (.booldec raw tag) s = .next t ∧
        SetOperands s t 0x11 { kind := 1, val := if b = 0 then 0 else 1 } s.opb)

/-- R105, R106: SINTENC of an INT appends its narrowest two's-complement form of 1, 2, 4 or 8 bytes, most significant
byte first, framed or raw, or ends in CAPACITY. The bytes of OUT above what is appended keep their values: the model's
choice, log entry 7. -/
def Obligations.SintencAppendsNarrowestSigned : Prop :=
  ∀ (s : State) (raw : Bool) (tag : Byte), s.opa.kind = 2 →
    EmitsBytes (.sintenc raw tag) 0x12 s (wire raw tag (
      let n := s.opa.val.toInt
      let b := payloadByte s.opa.val
      if -128 ≤ n ∧ n ≤ 127 then [b 0]
      else if -32768 ≤ n ∧ n ≤ 32767 then [b 1, b 0]
      else if -2147483648 ≤ n ∧ n ≤ 2147483647 then [b 3, b 2, b 1, b 0]
      else [b 7, b 6, b 5, b 4, b 3, b 2, b 1, b 0]))

/-- R107: SINTDEC reads a value of 1, 2, 4 or 8 bytes, minimal or not, as a big-endian two's-complement integer,
sign-extended to 64 bits. -/
def Obligations.SintdecSignExtends : Prop :=
  ∀ (s : State) (raw : Bool) (tag : Byte),
    (∀ b0, TakesValue raw tag s [b0] → ∃ t, exec (.sintdec raw tag) s = .next t ∧
      SetOperands s t 0x13 { kind := 2, val := b0.signExtend 64 } s.opb) ∧
    (∀ b1 b0, TakesValue raw tag s [b1, b0] → ∃ t, exec (.sintdec raw tag) s = .next t ∧
      SetOperands s t 0x13 { kind := 2, val := (b1 ++ b0).signExtend 64 } s.opb) ∧
    (∀ b3 b2 b1 b0, TakesValue raw tag s [b3, b2, b1, b0] → ∃ t, exec (.sintdec raw tag) s = .next t ∧
      SetOperands s t 0x13 { kind := 2, val := (b3 ++ b2 ++ b1 ++ b0).signExtend 64 } s.opb) ∧
    (∀ b7 b6 b5 b4 b3 b2 b1 b0, TakesValue raw tag s [b7, b6, b5, b4, b3, b2, b1, b0] →
      ∃ t, exec (.sintdec raw tag) s = .next t ∧
        SetOperands s t 0x13 { kind := 2, val := b7 ++ b6 ++ b5 ++ b4 ++ b3 ++ b2 ++ b1 ++ b0 } s.opb)

/-- R108, R109: UINTENC of an INT from 0 to 2^32 - 1 appends its narrowest form of 1, 2 or 4 bytes, most significant
byte first, framed or raw, or ends in CAPACITY. The bytes of OUT above what is appended keep their values: the model's
choice, log entry 7. -/
def Obligations.UintencAppendsNarrowestUnsigned : Prop :=
  ∀ (s : State) (raw : Bool) (tag : Byte), s.opa.kind = 2 → 0 ≤ s.opa.val.toInt → s.opa.val.toInt ≤ 4294967295 →
    EmitsBytes (.uintenc raw tag) 0x14 s (wire raw tag (
      let n := s.opa.val.toInt
      let b := payloadByte s.opa.val
      if n ≤ 255 then [b 0]
      else if n ≤ 65535 then [b 1, b 0]
      else [b 3, b 2, b 1, b 0]))

/-- R110: UINTDEC reads a value of 1, 2 or 4 bytes, minimal or not, as a big-endian number, zero-extended to 64 bits. -/
def Obligations.UintdecZeroExtends : Prop :=
  ∀ (s : State) (raw : Bool) (tag : Byte),
    (∀ b0, TakesValue raw tag s [b0] → ∃ t, exec (.uintdec raw tag) s = .next t ∧
      SetOperands s t 0x15 { kind := 2, val := b0.setWidth 64 } s.opb) ∧
    (∀ b1 b0, TakesValue raw tag s [b1, b0] → ∃ t, exec (.uintdec raw tag) s = .next t ∧
      SetOperands s t 0x15 { kind := 2, val := (b1 ++ b0).setWidth 64 } s.opb) ∧
    (∀ b3 b2 b1 b0, TakesValue raw tag s [b3, b2, b1, b0] → ∃ t, exec (.uintdec raw tag) s = .next t ∧
      SetOperands s t 0x15 { kind := 2, val := (b3 ++ b2 ++ b1 ++ b0).setWidth 64 } s.opb)

/-- R111, R112: FLTENC appends the discriminator and the operand's bit pattern, most significant byte first, framed or
raw, or ends in CAPACITY; of a FLOAT32 payload the low 32 bits count.
The bytes of OUT above what is appended keep their values: the model's choice, log entry 7. -/
def Obligations.FltencAppendsBitPattern : Prop :=
  ∀ (s : State) (raw : Bool) (tag : Byte),
    (s.opa.kind = 3 → EmitsBytes (.fltenc .single raw tag) 0x16 s (wire raw tag (
      let b := payloadByte s.opa.val
      [0x08, b 3, b 2, b 1, b 0]))) ∧
    (s.opa.kind = 4 → EmitsBytes (.fltenc .double raw tag) 0x16 s (wire raw tag (
      let b := payloadByte s.opa.val
      [s.params.doubleDisc, b 7, b 6, b 5, b 4, b 3, b 2, b 1, b 0])))

/-- R111, R113: FLTDEC reads the discriminator of PREC and a big-endian bit pattern, bit-exactly; a 32-bit pattern is
zero-extended. -/
def Obligations.FltdecReadsBitPattern : Prop :=
  ∀ (s : State) (raw : Bool) (tag : Byte),
    (∀ b3 b2 b1 b0, TakesValue raw tag s [0x08, b3, b2, b1, b0] →
      ∃ t, exec (.fltdec .single raw tag) s = .next t ∧
        SetOperands s t 0x17 { kind := 3, val := (b3 ++ b2 ++ b1 ++ b0).setWidth 64 } s.opb) ∧
    (∀ b7 b6 b5 b4 b3 b2 b1 b0, TakesValue raw tag s [s.params.doubleDisc, b7, b6, b5, b4, b3, b2, b1, b0] →
      ∃ t, exec (.fltdec .double raw tag) s = .next t ∧
        SetOperands s t 0x17 { kind := 4, val := b7 ++ b6 ++ b5 ++ b4 ++ b3 ++ b2 ++ b1 ++ b0 } s.opb)

/-- R113, R164: FLTDEC's value errors in order: BAD_VALUE_LENGTH for an empty value, WRONG_FLOAT_DISC for a first byte
that is not PREC's discriminator, BAD_VALUE_LENGTH for another length. -/
def Obligations.FltdecRefusesOtherValues : Prop :=
  ∀ (s : State) (raw : Bool) (tag : Byte) (prec : Prec),
    (TakesValue raw tag s [] → exec (.fltdec prec raw tag) s = .next (errored s 0x17 0x36)) ∧
    (∀ d r, TakesValue raw tag s (d :: r) →
      d ≠ (if prec = .single then 0x08 else s.params.doubleDisc) →
      exec (.fltdec prec raw tag) s = .next (errored s 0x17 0x35)) ∧
    (∀ d r, TakesValue raw tag s (d :: r) →
      d = (if prec = .single then 0x08 else s.params.doubleDisc) →
      r.length ≠ (if prec = .single then 4 else 8) →
      exec (.fltdec prec raw tag) s = .next (errored s 0x17 0x36))

/-! ## Quality and Timestamp (42_quality_timestamp.md) -/

/-- R130, R131: QUALENC of a QUALITY with accuracy 0..24 or 31 appends its wire byte, framed or raw, or ends in
CAPACITY; the payload's reserved bits count for nothing. The bytes of OUT above what is appended keep their values: the
model's choice, log entry 7. -/
def Obligations.QualencAppendsQualityByte : Prop :=
  ∀ (s : State) (raw : Bool) (tag : Byte), s.opb.kind = 5 → AccuracyOk (payloadByte s.opb.val 1).toNat →
    EmitsBytes (.qualenc raw tag) 0x20 s (wire raw tag [qualityWire s.opb.val])

/-- R130, R132: QUALDEC reads one byte whose accuracy is 0..24 or 31 into OPB, reserved payload bits 0. -/
def Obligations.QualdecReadsQualityByte : Prop :=
  ∀ (s : State) (raw : Bool) (tag b : Byte), TakesValue raw tag s [b] → AccuracyOk (b.extractLsb' 0 5).toNat →
    ∃ t, exec (.qualdec raw tag) s = .next t ∧
      SetOperands s t 0x21 s.opa { kind := 5, val := qualityPayload b }

/-- R134, R135, R136, over the PRESUMED binary64 layout (log entry 9): TSENC of finite seconds from 0 (or -0.0) to below
2^32 and a Quality with a valid accuracy appends SEC, FRAC and the Quality byte, framed or raw, or ends in CAPACITY. FRAC
is the fractional part times 2^24 rounded to the nearest integer, ties to even; a fraction that rounds to 2^24 is carried
into SEC. The bytes of OUT above what is appended keep their values: the model's choice, log entry 7. -/
def Obligations.TsencAppendsTimestamp : Prop :=
  ∀ (s : State) (raw : Bool) (tag : Byte), s.opa.kind = 4 → s.opb.kind = 5 →
    F64Finite s.opa.val → 0 ≤ f64Value s.opa.val → f64Value s.opa.val < 2 ^ 32 →
    AccuracyOk (payloadByte s.opb.val 1).toNat →
    ∃ sec r : ℕ, (sec : ℚ) ≤ f64Value s.opa.val ∧ f64Value s.opa.val < sec + 1 ∧
      NearestEven ((f64Value s.opa.val - sec) * 2 ^ 24) r ∧
      EmitsBytes (.tsenc raw tag) 0x22 s (wire raw tag
        (timestampWire (if r = 2 ^ 24 then sec + 1 else sec) (if r = 2 ^ 24 then 0 else r) ++ [qualityWire s.opb.val]))

/-- R135, R136, R164, over the PRESUMED binary64 layout (log entry 9): TSENC's errors in order: TYPE_MISMATCH for OPA
not FLOAT64 or OPB not QUALITY, RANGE_TIMESTAMP for seconds that are not finite, negative or 2^32 and above,
RANGE_ACCURACY. -/
def Obligations.TsencRefusesOtherOperands : Prop :=
  ∀ (s : State) (raw : Bool) (tag : Byte),
    (s.opa.kind ≠ 4 ∨ s.opb.kind ≠ 5 → exec (.tsenc raw tag) s = .next (errored s 0x22 0x10)) ∧
    (s.opa.kind = 4 → s.opb.kind = 5 →
      ¬ F64Finite s.opa.val ∨ f64Value s.opa.val < 0 ∨ 2 ^ 32 ≤ f64Value s.opa.val →
      exec (.tsenc raw tag) s = .next (errored s 0x22 0x25)) ∧
    (s.opa.kind = 4 → s.opb.kind = 5 →
      F64Finite s.opa.val → 0 ≤ f64Value s.opa.val → f64Value s.opa.val < 2 ^ 32 →
      ¬ AccuracyOk (payloadByte s.opb.val 1).toNat →
      exec (.tsenc raw tag) s = .next (errored s 0x22 0x23))

/-- R137, R138, over the PRESUMED binary64 layout (log entry 9): TSDEC of 8 bytes whose Quality is valid puts the
binary64 nearest to SEC + FRAC / 2^24, ties to even, in OPA and the Quality in OPB. -/
def Obligations.TsdecReadsNearestSeconds : Prop :=
  ∀ (s : State) (raw : Bool) (tag s3 s2 s1 s0 f2 f1 f0 q : Byte),
    TakesValue raw tag s [s3, s2, s1, s0, f2, f1, f0, q] → AccuracyOk (q.extractLsb' 0 5).toNat →
    ∃ t bits, exec (.tsdec raw tag) s = .next t ∧
      SetOperands s t 0x23 { kind := 4, val := bits } { kind := 5, val := qualityPayload q } ∧
      NearestF64 (timestampValue s3 s2 s1 s0 f2 f1 f0) bits

/-- R137, over the PRESUMED binary64 layout (log entry 9): below 2^29 seconds the decoded value is the exact sum SEC +
FRAC / 2^24. -/
def Obligations.TsdecExactBelowTwoPow29 : Prop :=
  ∀ (s : State) (raw : Bool) (tag s3 s2 s1 s0 f2 f1 f0 q : Byte),
    TakesValue raw tag s [s3, s2, s1, s0, f2, f1, f0, q] → AccuracyOk (q.extractLsb' 0 5).toNat →
    (s3 ++ s2 ++ s1 ++ s0).toNat < 2 ^ 29 →
    ∃ t, exec (.tsdec raw tag) s = .next t ∧ F64Finite t.opa.val ∧
      f64Value t.opa.val = timestampValue s3 s2 s1 s0 f2 f1 f0

/-! ## Buffer and status control (43_buffer_control.md) -/

/-- R150: CLROUT is the word 0x30 and no other word with that OP; it sets OUT_LEN to 0, makes the bytes of OUT
unspecified, completes, and leaves all else. -/
def Obligations.ClroutEmptiesOutput : Prop :=
  (∀ w : Word, w.extractLsb' 0 8 = 0x30#8 → (decode w = .ok .clrout ↔ w = 0x30) ∧ (w ≠ 0x30 → legal w = false)) ∧
  ∀ s : State, ∃ t, exec .clrout s = .next t ∧ Ends s t 0x30 ∧ t.outLen = 0 ∧
    (∀ a, t.output.lookup a = none) ∧ t.opa = s.opa ∧ t.opb = s.opb ∧ KeepsIn s t

/-- R151: CLRST is the word 0x31; it clears STICKY, writes CODE 0x00 and LASTOP, and changes nothing but STATUS. -/
def Obligations.ClrstClearsSticky : Prop :=
  decode 0x00000031 = .ok .clrst ∧
  ∀ s : State, exec .clrst s = .next { s with status := { code := 0x00, lastop := 0x31, sticky := false } }

/-- R152: MOVOI is the word 0x32; the bytes of OUT below OUT_LEN become the first bytes of IN, IN_LEN becomes OUT_LEN and
OUT_LEN 0; the bytes of IN above keep their values, the bytes of OUT become unspecified, all else is as before. -/
def Obligations.MovoiMovesOutputToInput : Prop :=
  decode 0x00000032 = .ok .movoi ∧
  ∀ s : State, ∃ t, exec .movoi s = .next t ∧ Ends s t 0x32 ∧ t.inLen = s.outLen ∧ t.outLen = 0 ∧
    (∀ a, a < s.outLen.toNat → t.inByte a = s.outByte a) ∧
    (∀ a, s.outLen.toNat ≤ a → t.inByte a = s.inByte a) ∧
    (∀ a, t.output.lookup a = none) ∧ t.opa = s.opa ∧ t.opb = s.opb

/-! ## Errors (60_exceptions.md) and round trips -/

/-- R161, R164: an operand of a kind the command does not take, reserved kinds included, is TYPE_MISMATCH. -/
def Obligations.WrongKindIsTypeMismatch : Prop :=
  ∀ (s : State) (raw : Bool) (tag : Byte),
    (s.opa.kind ≠ 2 → exec .lenenc s = .next (errored s 0x01 0x10)) ∧
    (s.opa.kind ≠ 0 → s.opa.kind ≠ 1 → exec (.boolenc raw tag) s = .next (errored s 0x10 0x10)) ∧
    (s.opa.kind ≠ 2 → exec (.sintenc raw tag) s = .next (errored s 0x12 0x10)) ∧
    (s.opa.kind ≠ 2 → exec (.uintenc raw tag) s = .next (errored s 0x14 0x10)) ∧
    (s.opa.kind ≠ 3 → exec (.fltenc .single raw tag) s = .next (errored s 0x16 0x10)) ∧
    (s.opa.kind ≠ 4 → exec (.fltenc .double raw tag) s = .next (errored s 0x16 0x10)) ∧
    (s.opb.kind ≠ 5 → exec (.qualenc raw tag) s = .next (errored s 0x20 0x10))

/-- R84, R108, R131: an operand of the right kind but out of the command's range is the range error of R161. -/
def Obligations.OutOfRangeOperandIsRangeError : Prop :=
  ∀ (s : State) (raw : Bool) (tag : Byte),
    (s.opa.kind = 2 → s.opa.val.toInt < 0 ∨ 4294967295 < s.opa.val.toInt →
      exec .lenenc s = .next (errored s 0x01 0x24)) ∧
    (s.opa.kind = 2 → s.opa.val.toInt < 0 → exec (.uintenc raw tag) s = .next (errored s 0x14 0x20)) ∧
    (s.opa.kind = 2 → 4294967295 < s.opa.val.toInt → exec (.uintenc raw tag) s = .next (errored s 0x14 0x21)) ∧
    (s.opb.kind = 5 → ¬ AccuracyOk (payloadByte s.opb.val 1).toNat →
      exec (.qualenc raw tag) s = .next (errored s 0x20 0x23))

/-- R104, R107, R110, R132, R138: a value portion of a length the codec does not accept is BAD_VALUE_LENGTH, and a Quality
byte with accuracy 25..30 is RANGE_ACCURACY_WIRE. -/
def Obligations.UnacceptedValueIsDecodeError : Prop :=
  ∀ (s : State) (raw : Bool) (tag : Byte) (v : List Byte), TakesValue raw tag s v →
    (2 ≤ v.length → exec (.booldec raw tag) s = .next (errored s 0x11 0x36)) ∧
    (v.length ∉ [1, 2, 4, 8] → exec (.sintdec raw tag) s = .next (errored s 0x13 0x36)) ∧
    (v.length ∉ [1, 2, 4] → exec (.uintdec raw tag) s = .next (errored s 0x15 0x36)) ∧
    (v.length ≠ 1 → exec (.qualdec raw tag) s = .next (errored s 0x21 0x36)) ∧
    (v.length ≠ 8 → exec (.tsdec raw tag) s = .next (errored s 0x23 0x36)) ∧
    (∀ q, v = [q] → ¬ AccuracyOk (q.extractLsb' 0 5).toNat →
      exec (.qualdec raw tag) s = .next (errored s 0x21 0x26)) ∧
    (∀ r q, v = r ++ [q] → r.length = 7 → ¬ AccuracyOk (q.extractLsb' 0 5).toNat →
      exec (.tsdec raw tag) s = .next (errored s 0x23 0x26))

/-- The spec's own inference R115 (from R100 to R113): encoding an operand the encoder accepts into an empty OUT, moving
OUT to IN and decoding with the same TAG and MOD gives the operand back, for every kind; a BOOL with another nonzero
payload comes back as (BOOL, 1). -/
def Obligations.CodecRoundTrip : Prop :=
  ∀ (s : State) (raw : Bool) (tag : Byte), s.params.ok = true → s.outLen = 0 →
    (s.opa.kind = 2 → RoundTrips (.sintenc raw tag) (.sintdec raw tag) s s.opa) ∧
    (s.opa.kind = 2 → 0 ≤ s.opa.val.toInt → s.opa.val.toInt ≤ 4294967295 →
      RoundTrips (.uintenc raw tag) (.uintdec raw tag) s s.opa) ∧
    (s.opa.kind = 3 → s.opa.val.extractLsb' 32 32 = 0#32 →
      RoundTrips (.fltenc .single raw tag) (.fltdec .single raw tag) s s.opa) ∧
    (s.opa.kind = 4 → RoundTrips (.fltenc .double raw tag) (.fltdec .double raw tag) s s.opa) ∧
    (s.opa.kind = 1 → RoundTrips (.boolenc raw tag) (.booldec raw tag) s
      { kind := 1, val := if s.opa.val = 0 then 0 else 1 }) ∧
    (s.opa.kind = 0 → RoundTrips (.boolenc raw tag) (.booldec raw tag) s { kind := 0, val := 0 })

/-- The spec's own inference R139 (from R134, R135, R137), over the PRESUMED binary64 layout (log entry 9): encoding a
Timestamp of any seconds TSENC accepts, from 0 to below 2^32, into an empty OUT, moving OUT to IN and decoding it returns
the seconds to within 2^-25 and the Quality's four fields. From 2^28 seconds up, where every binary64 is a multiple of
2^-24, OPA comes back exactly. -/
def Obligations.TimestampRoundTripWithinHalfStep : Prop :=
  ∀ (s : State) (raw : Bool) (tag : Byte), s.params.ok = true → s.outLen = 0 →
    s.opa.kind = 4 → s.opb.kind = 5 →
    F64Finite s.opa.val → 0 ≤ f64Value s.opa.val → f64Value s.opa.val < 2 ^ 32 →
    AccuracyOk (payloadByte s.opb.val 1).toNat →
    ∃ s1 s2 t, exec (.tsenc raw tag) s = .next s1 ∧ exec .movoi s1 = .next s2 ∧
      exec (.tsdec raw tag) s2 = .next t ∧ t.status.code = 0 ∧
      t.opa.kind = 4 ∧ F64Finite t.opa.val ∧ |f64Value t.opa.val - f64Value s.opa.val| ≤ 1 / 2 ^ 25 ∧
      (2 ^ 28 ≤ f64Value s.opa.val → t.opa = s.opa) ∧
      t.opb = { kind := 5, val := s.opb.val &&& 0x000000000000FF07 }
end

