-- ==== Sys2Proof/Laws/Bytes.lean ====
section
/-! SUPPORT. The big-endian conversions: lengths, bounds, and that one undoes the other. -/

namespace Sys2Proof.Machine

@[simp] theorem be_length (n v : Nat) : (be n v).length = n := by
  induction n with
  | zero => rfl
  | succ n ih => simp [be, ih]

theorem ube_lt (bs : List Byte) : ube bs < 256 ^ bs.length := by
  induction bs with
  | nil => simp [ube]
  | cons b bs ih =>
    have hb : b.toNat + 1 ≤ 256 := b.isLt
    calc b.toNat * 256 ^ bs.length + ube bs
        < b.toNat * 256 ^ bs.length + 256 ^ bs.length := by omega
      _ = (b.toNat + 1) * 256 ^ bs.length := by ring
      _ ≤ 256 * 256 ^ bs.length := Nat.mul_le_mul_right _ hb
      _ = 256 ^ (b :: bs).length := by simp [pow_succ, mul_comm]

/-- Reading back what `be` wrote gives the number modulo the width. -/
theorem ube_be (n v : Nat) : ube (be n v) = v % 256 ^ n := by
  induction n with
  | zero => simp [be, ube, Nat.mod_one]
  | succ n ih =>
    have h1 : v >>> (8 * n) = v / 256 ^ n := by
      rw [Nat.shiftRight_eq_div_pow, pow_mul]
      norm_num
    have h2 : v % 256 ^ (n + 1) = v % 256 ^ n + 256 ^ n * (v / 256 ^ n % 256) := by
      rw [pow_succ, Nat.mod_mul]
    rw [h2]
    simp only [be, ube, be_length, ih, BitVec.toNat_ofNat, h1, show 2 ^ 8 = 256 from rfl]
    ring

end Sys2Proof.Machine
end

