-- ==== Sys2Proof/Laws/Memory.lean ====
section
/-! SUPPORT. The laws of a byte buffer: read after write, all other bytes alone, the canonical form kept. -/

namespace Sys2Proof.Machine

/-! Looking up in lists of cells. -/

theorem cellsLookup_append (xs ys : List Host.Cell) (i : Nat) :
    cellsLookup (xs ++ ys) i = (cellsLookup xs i).or (cellsLookup ys i) := by
  induction xs with
  | nil => rfl
  | cons c cs ih =>
    obtain ⟨a, b⟩ := c
    by_cases h : a = i <;> simp [cellsLookup, h, ih]

theorem cellsLookup_filter (p : Nat → Bool) (cs : List Host.Cell) (i : Nat) :
    cellsLookup (cs.filter (fun c => p c.1)) i = if p i then cellsLookup cs i else none := by
  induction cs with
  | nil => simp [cellsLookup, Memory.unlisted]
  | cons c cs ih =>
    obtain ⟨a, b⟩ := c
    by_cases hp : p a
    · by_cases h : a = i
      · subst h; simp [cellsLookup, hp]
      · simp [cellsLookup, hp, h, ih]
    · by_cases h : a = i
      · subst h; simp [hp, ih]
      · simp [cellsLookup, hp, h, ih]

theorem cellsLookup_cellsFrom (a : Nat) (bs : List Byte) (i : Nat) :
    cellsLookup (cellsFrom a bs) i = if a ≤ i then bs[i - a]? else none := by
  induction bs generalizing a with
  | nil => simp [cellsFrom, cellsLookup, Memory.unlisted]
  | cons b bs ih =>
    by_cases h : a = i
    · subst h; simp [cellsFrom, cellsLookup]
    · simp only [cellsFrom, cellsLookup, h, if_false, ih]
      by_cases hle : a ≤ i
      · have h1 : a + 1 ≤ i := by omega
        have h2 : i - a = (i - (a + 1)) + 1 := by omega
        simp [hle, h1, h2]
      · have h1 : ¬ a + 1 ≤ i := by omega
        simp [hle, h1]

/-- WHAT A WRITE DOES: the bytes written read back, every other byte is as before. It needs no canonical form. -/
theorem Memory.lookup_write (m : Memory) (a : Nat) (bs : List Byte) (i : Nat) :
    (m.write a bs).lookup i = if a ≤ i ∧ i < a + bs.length then bs[i - a]? else m.lookup i := by
  simp only [Memory.lookup, Memory.write, cellsLookup_append, cellsLookup_cellsFrom,
    cellsLookup_filter (fun k => decide (k < a)),
    cellsLookup_filter (fun k => decide (a + bs.length ≤ k)), decide_eq_true_eq]
  by_cases h1 : i < a
  · have h2 : ¬ a ≤ i := by omega
    have h3 : ¬ a + bs.length ≤ i := by omega
    simp [h1, h2, h3]
  · have h2 : a ≤ i := by omega
    by_cases h3 : i < a + bs.length
    · have h4 : ¬ a + bs.length ≤ i := by omega
      simp [h1, h2, h3, h4]
    · have h4 : a + bs.length ≤ i := by omega
      have h5 : bs.length ≤ i - a := by omega
      simp [h1, h2, h3, h4, h5]

@[simp] theorem Memory.write_gen (m : Memory) (a : Nat) (bs : List Byte) : (m.write a bs).gen = m.gen := rfl

@[simp] theorem Memory.lookup_fresh (g i : Nat) : (Memory.fresh g).lookup i = none := rfl

@[simp] theorem Memory.lookup_forget (m : Memory) (i : Nat) : m.forget.lookup i = none := rfl

@[simp] theorem Memory.forget_gen (m : Memory) : m.forget.gen = m.gen + 1 := rfl

/-! The canonical form. -/

/-- The indices of the cells. -/
theorem cellsRise_iff (cs : List Host.Cell) : cellsRise cs = true ↔ cs.Pairwise (fun a b => a.1 < b.1) := by
  induction cs with
  | nil => simp [cellsRise]
  | cons c cs ih =>
    cases cs with
    | nil => simp [cellsRise]
    | cons d ds =>
      simp only [cellsRise, Bool.and_eq_true, decide_eq_true_eq, ih]
      constructor
      · rintro ⟨h, hp⟩
        refine List.pairwise_cons.2 ⟨?_, hp⟩
        intro e he
        rcases List.mem_cons.1 he with rfl | he
        · exact h
        · exact lt_trans h ((List.pairwise_cons.1 hp).1 e he)
      · intro hp
        exact ⟨(List.pairwise_cons.1 hp).1 d (by simp), (List.pairwise_cons.1 hp).2⟩

theorem mem_cellsFrom {a : Nat} {bs : List Byte} {c : Host.Cell} (h : c ∈ cellsFrom a bs) :
    a ≤ c.1 ∧ c.1 < a + bs.length := by
  induction bs generalizing a with
  | nil => simp [cellsFrom] at h
  | cons b bs ih =>
    rcases List.mem_cons.1 h with rfl | h
    · simp
    · have := ih h
      simp only [List.length_cons]
      omega

theorem cellsFrom_pairwise (a : Nat) (bs : List Byte) :
    (cellsFrom a bs).Pairwise (fun x y => x.1 < y.1) := by
  induction bs generalizing a with
  | nil => simp [cellsFrom]
  | cons b bs ih =>
    refine List.pairwise_cons.2 ⟨fun c hc => ?_, ih (a + 1)⟩
    have := mem_cellsFrom hc
    show a < c.1
    omega

/-- A write keeps the canonical form. -/
theorem Memory.wf_write {m : Memory} (h : m.wf = true) (a : Nat) (bs : List Byte) : (m.write a bs).wf = true := by
  have hm := (cellsRise_iff _).1 h
  refine (cellsRise_iff _).2 ?_
  simp only [Memory.write, List.pairwise_append, List.mem_append, List.mem_filter, decide_eq_true_eq]
  refine ⟨⟨hm.filter _, cellsFrom_pairwise a bs, ?_⟩, hm.filter _, ?_⟩
  · intro x hx y hy
    have := mem_cellsFrom hy
    omega
  · intro x hx y hy
    rcases hx with hx | hx
    · omega
    · have := mem_cellsFrom hx
      omega

/-- Forgetting keeps the canonical form. -/
theorem Memory.wf_forget (m : Memory) : m.forget.wf = true := rfl

/-- A buffer of unspecified bytes is in canonical form. -/
theorem Memory.wf_fresh (g : Nat) : (Memory.fresh g).wf = true := rfl

/-- The buffers of the state after reset are in canonical form. -/
theorem reset_memory_wf : State.reset.input.wf = true ∧ State.reset.output.wf = true := ⟨rfl, rfl⟩

end Sys2Proof.Machine
end

