-- ==== Sys2Proof/Laws/State.lean ====
section
/-! SUPPORT. One lemma per field per update of the state, so that no proof unfolds a record update. -/

namespace Sys2Proof.Machine

variable (s : State)

/-! Writing OPA. -/
@[simp] theorem setOpa_opa (o) : (s.setOpa o).opa = o := rfl
@[simp] theorem setOpa_opb (o) : (s.setOpa o).opb = s.opb := rfl
@[simp] theorem setOpa_input (o) : (s.setOpa o).input = s.input := rfl
@[simp] theorem setOpa_inLen (o) : (s.setOpa o).inLen = s.inLen := rfl
@[simp] theorem setOpa_output (o) : (s.setOpa o).output = s.output := rfl
@[simp] theorem setOpa_outLen (o) : (s.setOpa o).outLen = s.outLen := rfl
@[simp] theorem setOpa_status (o) : (s.setOpa o).status = s.status := rfl
@[simp] theorem setOpa_params (o) : (s.setOpa o).params = s.params := rfl
@[simp] theorem setOpa_pending (o) : (s.setOpa o).pending = s.pending := rfl
@[simp] theorem setOpa_reply (o) : (s.setOpa o).reply = s.reply := rfl
@[simp] theorem setOpa_inByte (o a) : (s.setOpa o).inByte a = s.inByte a := rfl
@[simp] theorem setOpa_outByte (o a) : (s.setOpa o).outByte a = s.outByte a := rfl

/-! Writing OPB. -/
@[simp] theorem setOpb_opa (o) : (s.setOpb o).opa = s.opa := rfl
@[simp] theorem setOpb_opb (o) : (s.setOpb o).opb = o := rfl
@[simp] theorem setOpb_input (o) : (s.setOpb o).input = s.input := rfl
@[simp] theorem setOpb_inLen (o) : (s.setOpb o).inLen = s.inLen := rfl
@[simp] theorem setOpb_output (o) : (s.setOpb o).output = s.output := rfl
@[simp] theorem setOpb_outLen (o) : (s.setOpb o).outLen = s.outLen := rfl
@[simp] theorem setOpb_status (o) : (s.setOpb o).status = s.status := rfl
@[simp] theorem setOpb_params (o) : (s.setOpb o).params = s.params := rfl
@[simp] theorem setOpb_pending (o) : (s.setOpb o).pending = s.pending := rfl
@[simp] theorem setOpb_reply (o) : (s.setOpb o).reply = s.reply := rfl
@[simp] theorem setOpb_inByte (o a) : (s.setOpb o).inByte a = s.inByte a := rfl
@[simp] theorem setOpb_outByte (o a) : (s.setOpb o).outByte a = s.outByte a := rfl

/-! An error. -/
@[simp] theorem raiseError_opa (op e) : (s.raiseError op e).opa = s.opa := rfl
@[simp] theorem raiseError_opb (op e) : (s.raiseError op e).opb = s.opb := rfl
@[simp] theorem raiseError_input (op e) : (s.raiseError op e).input = s.input := rfl
@[simp] theorem raiseError_inLen (op e) : (s.raiseError op e).inLen = s.inLen := rfl
@[simp] theorem raiseError_output (op e) : (s.raiseError op e).output = s.output := rfl
@[simp] theorem raiseError_outLen (op e) : (s.raiseError op e).outLen = s.outLen := rfl
@[simp] theorem raiseError_status (op e) :
    (s.raiseError op e).status = { code := e.code, lastop := op, sticky := true } := rfl
@[simp] theorem raiseError_params (op e) : (s.raiseError op e).params = s.params := rfl
@[simp] theorem raiseError_pending (op e) : (s.raiseError op e).pending = s.pending := rfl
@[simp] theorem raiseError_reply (op e) : (s.raiseError op e).reply = s.reply := rfl
@[simp] theorem raiseError_inByte (op e a) : (s.raiseError op e).inByte a = s.inByte a := rfl
@[simp] theorem raiseError_outByte (op e a) : (s.raiseError op e).outByte a = s.outByte a := rfl

/-! Completing. -/
@[simp] theorem complete_opa (op) : (s.complete op).opa = s.opa := rfl
@[simp] theorem complete_opb (op) : (s.complete op).opb = s.opb := rfl
@[simp] theorem complete_input (op) : (s.complete op).input = s.input := rfl
@[simp] theorem complete_inLen (op) : (s.complete op).inLen = s.inLen := rfl
@[simp] theorem complete_output (op) : (s.complete op).output = s.output := rfl
@[simp] theorem complete_outLen (op) : (s.complete op).outLen = s.outLen := rfl
@[simp] theorem complete_status (op) :
    (s.complete op).status = { code := 0, lastop := op, sticky := s.status.sticky } := rfl
@[simp] theorem complete_params (op) : (s.complete op).params = s.params := rfl
@[simp] theorem complete_pending (op) : (s.complete op).pending = s.pending := rfl
@[simp] theorem complete_reply (op) : (s.complete op).reply = s.reply := rfl
@[simp] theorem complete_inByte (op a) : (s.complete op).inByte a = s.inByte a := rfl
@[simp] theorem complete_outByte (op a) : (s.complete op).outByte a = s.outByte a := rfl

/-! Emptying OUT. -/
@[simp] theorem emptyOut_opa : s.emptyOut.opa = s.opa := rfl
@[simp] theorem emptyOut_opb : s.emptyOut.opb = s.opb := rfl
@[simp] theorem emptyOut_input : s.emptyOut.input = s.input := rfl
@[simp] theorem emptyOut_inLen : s.emptyOut.inLen = s.inLen := rfl
@[simp] theorem emptyOut_output : s.emptyOut.output = s.output.forget := rfl
@[simp] theorem emptyOut_outLen : s.emptyOut.outLen = 0 := rfl
@[simp] theorem emptyOut_status : s.emptyOut.status = s.status := rfl
@[simp] theorem emptyOut_params : s.emptyOut.params = s.params := rfl
@[simp] theorem emptyOut_pending : s.emptyOut.pending = s.pending := rfl
@[simp] theorem emptyOut_reply : s.emptyOut.reply = s.reply := rfl
@[simp] theorem emptyOut_inByte (a) : s.emptyOut.inByte a = s.inByte a := rfl

/-! Replacing OUT's contents. -/
@[simp] theorem replaceOut_opa (v) : (s.replaceOut v).opa = s.opa := rfl
@[simp] theorem replaceOut_opb (v) : (s.replaceOut v).opb = s.opb := rfl
@[simp] theorem replaceOut_input (v) : (s.replaceOut v).input = s.input := rfl
@[simp] theorem replaceOut_inLen (v) : (s.replaceOut v).inLen = s.inLen := rfl
@[simp] theorem replaceOut_output (v) : (s.replaceOut v).output = s.output.forget.write 0 v := rfl
@[simp] theorem replaceOut_outLen (v) : (s.replaceOut v).outLen = BitVec.ofNat 32 v.length := rfl
@[simp] theorem replaceOut_status (v) : (s.replaceOut v).status = s.status := rfl
@[simp] theorem replaceOut_params (v) : (s.replaceOut v).params = s.params := rfl
@[simp] theorem replaceOut_pending (v) : (s.replaceOut v).pending = s.pending := rfl
@[simp] theorem replaceOut_reply (v) : (s.replaceOut v).reply = s.reply := rfl
@[simp] theorem replaceOut_inByte (v a) : (s.replaceOut v).inByte a = s.inByte a := rfl

/-! The port taking an access. -/
@[simp] theorem accepted_opa (r) : (s.accepted r).opa = s.opa := rfl
@[simp] theorem accepted_opb (r) : (s.accepted r).opb = s.opb := rfl
@[simp] theorem accepted_input (r) : (s.accepted r).input = s.input := rfl
@[simp] theorem accepted_inLen (r) : (s.accepted r).inLen = s.inLen := rfl
@[simp] theorem accepted_output (r) : (s.accepted r).output = s.output := rfl
@[simp] theorem accepted_outLen (r) : (s.accepted r).outLen = s.outLen := rfl
@[simp] theorem accepted_status (r) : (s.accepted r).status = s.status := rfl
@[simp] theorem accepted_params (r) : (s.accepted r).params = s.params := rfl
@[simp] theorem accepted_pending (r) : (s.accepted r).pending = r := rfl
@[simp] theorem accepted_reply (r) : (s.accepted r).reply = none := rfl
@[simp] theorem accepted_inByte (r a) : (s.accepted r).inByte a = s.inByte a := rfl
@[simp] theorem accepted_outByte (r a) : (s.accepted r).outByte a = s.outByte a := rfl

/-! The step. -/

/-- A step with an access pending is that access on the state the port leaves. -/
theorem step_cons {a : HostAction} {rest : List HostAction} (h : s.pending = a :: rest) :
    step s = hostAccess a (s.accepted rest) := by
  simp [step, h]

/-- The word to be fetched stands first in the port's stream. -/
theorem withFetchWord_pending (n w : Nat) :
    (s.withFetchWord n w).pending = .writeReg cmdReg ((tableWord n w).setWidth 64) :: s.pending := rfl

end Sys2Proof.Machine
end

