-- ==== Sys2Proof/Laws/Ops.lean ====
section
/-! SUPPORT. What each shared operation can do, said once. -/

namespace Sys2Proof.Machine

/-! Reading the buffers. -/

@[simp] theorem inBytes_length (s : State) : s.inBytes.length = s.inLen.toNat := by simp [State.inBytes]

@[simp] theorem outBytes_length (s : State) : s.outBytes.length = s.outLen.toNat := by simp [State.outBytes]

@[simp] theorem inBytes_getElem (s : State) (k : Nat) (h : k < s.inBytes.length) : s.inBytes[k] = s.inByte k := by
  simp [State.inBytes]

@[simp] theorem outBytes_getElem (s : State) (k : Nat) (h : k < s.outBytes.length) : s.outBytes[k] = s.outByte k := by
  simp [State.outBytes]

/-- IN read after a write: the bytes written, and every other byte as before. -/
theorem inByte_write (s : State) (a : Nat) (bs : List Byte) (i : Nat) :
    ({ s with input := s.input.write a bs } : State).inByte i =
      if a ≤ i ∧ i < a + bs.length then bs.getD (i - a) 0 else s.inByte i := by
  simp only [State.inByte, Memory.lookup_write, Memory.write_gen]
  by_cases h : a ≤ i ∧ i < a + bs.length
  · have h1 : i - a < bs.length := by omega
    simp [h, h1]
  · simp [h]

/-- OUT after its contents are replaced: the new contents are held, nothing above them is (log entry 7). -/
theorem replaceOut_lookup (s : State) (v : List Byte) (i : Nat) :
    (s.replaceOut v).output.lookup i = if i < v.length then v[i]? else none := by
  simp [State.replaceOut, Memory.lookup_write]

/-- OUT read after a write: the bytes written, and every other byte as before. -/
theorem outByte_write (s : State) (a : Nat) (bs : List Byte) (i : Nat) :
    ({ s with output := s.output.write a bs } : State).outByte i =
      if a ≤ i ∧ i < a + bs.length then bs.getD (i - a) 0 else s.outByte i := by
  simp only [State.outByte, Memory.lookup_write, Memory.write_gen]
  by_cases h : a ≤ i ∧ i < a + bs.length
  · have h1 : i - a < bs.length := by omega
    simp [h, h1]
  · simp [h]

/-! Append. -/

/-- An append that answers wrote its bytes at OUT_LEN, advanced OUT_LEN, and fitted. -/
theorem append_ok {s s' : State} {t : List Byte} (h : s.append t = .ok s') :
    s.outLen.toNat + t.length ≤ s.cap ∧
    s' = { s with
      output := s.output.write s.outLen.toNat t
      outLen := BitVec.ofNat 32 (s.outLen.toNat + t.length) } := by
  unfold State.append at h
  split at h
  · cases h
  · rename_i hle
    cases h
    exact ⟨by omega, rfl⟩

/-- An append fails only with CAPACITY, and only for want of room. -/
theorem append_error {s : State} {t : List Byte} {e : ErrorCode} (h : s.append t = .error e) :
    e = .capacity ∧ s.cap < s.outLen.toNat + t.length := by
  unfold State.append at h
  split at h
  · rename_i hlt
    cases h
    exact ⟨rfl, hlt⟩
  · cases h

theorem append_of_fits {s : State} {t : List Byte} (h : s.outLen.toNat + t.length ≤ s.cap) :
    s.append t = .ok { s with
      output := s.output.write s.outLen.toNat t
      outLen := BitVec.ofNat 32 (s.outLen.toNat + t.length) } := by
  simp [State.append, Nat.not_lt.2 h]

theorem append_of_full {s : State} {t : List Byte} (h : s.cap < s.outLen.toNat + t.length) :
    s.append t = .error .capacity := by
  simp [State.append, h]

/-! The end of a command. -/

@[simp] theorem commit_ok (s s' : State) (op : Byte) : s.commit op (.ok s') = .next (s'.complete op) := rfl

@[simp] theorem commit_error (s : State) (op : Byte) (e : ErrorCode) :
    s.commit op (.error e) = .next (s.raiseError op e) := rfl

/-- A command that answers `t` either completed with its results or wrote STATUS alone. -/
theorem commit_next {s t : State} {op : Byte} {r : Except ErrorCode State} (h : s.commit op r = .next t) :
    (∃ s', r = .ok s' ∧ t = s'.complete op) ∨ (∃ e, r = .error e ∧ t = s.raiseError op e) := by
  cases r with
  | ok s' => exact .inl ⟨s', rfl, by simpa using h.symm⟩
  | error e => exact .inr ⟨e, rfl, by simpa using h.symm⟩

/-- Every command answers a next state. -/
theorem commit_answers (s : State) (op : Byte) (r : Except ErrorCode State) : ∃ t, s.commit op r = .next t := by
  cases r <;> simp

/-- No error has CODE 0x00. -/
theorem errorCode_ne_zero (e : ErrorCode) : e.code ≠ 0 := by cases e <;> decide

/-! A computation of a command, taken apart at its first step. -/

theorem except_bind_ok {α β : Type} {x : Except ErrorCode α} {f : α → Except ErrorCode β} {b : β}
    (h : (x >>= f) = .ok b) : ∃ a, x = .ok a ∧ f a = .ok b := by
  cases x with
  | ok a => exact ⟨a, rfl, h⟩
  | error e => cases h

theorem except_bind_error {α β : Type} {x : Except ErrorCode α} {f : α → Except ErrorCode β} {e : ErrorCode}
    (h : (x >>= f) = .error e) : x = .error e ∨ ∃ a, x = .ok a ∧ f a = .error e := by
  cases x with
  | ok a => exact .inr ⟨a, rfl, h⟩
  | error e' => left; cases h; rfl

@[simp] theorem except_ok_bind {α β : Type} (a : α) (f : α → Except ErrorCode β) :
    ((Except.ok a : Except ErrorCode α) >>= f) = f a := rfl

@[simp] theorem except_error_bind {α β : Type} (e : ErrorCode) (f : α → Except ErrorCode β) :
    ((Except.error e : Except ErrorCode α) >>= f) = .error e := rfl

/-! Operands. -/

/-- Reading an INT operand: its two's-complement value, or TYPE_MISMATCH. -/
theorem readInt_cases (o : Operand) :
    (o.kind = Kind.int ∧ o.readInt = .ok o.val.toInt) ∨ (o.kind ≠ Kind.int ∧ o.readInt = .error .typeMismatch) := by
  by_cases h : o.kind = Kind.int
  · exact .inl ⟨h, by rw [Operand.readInt, if_pos h]⟩
  · exact .inr ⟨h, by rw [Operand.readInt, if_neg h]⟩

/-- Reading a FLOAT32 operand: its low 32 bits, or TYPE_MISMATCH. -/
theorem readFloat32_cases (o : Operand) :
    (o.kind = Kind.float32 ∧ o.readFloat32 = .ok (o.val.extractLsb' 0 32)) ∨
    (o.kind ≠ Kind.float32 ∧ o.readFloat32 = .error .typeMismatch) := by
  by_cases h : o.kind = Kind.float32
  · exact .inl ⟨h, by rw [Operand.readFloat32, if_pos h]⟩
  · exact .inr ⟨h, by rw [Operand.readFloat32, if_neg h]⟩

/-- Reading a FLOAT64 operand: its bits, or TYPE_MISMATCH. -/
theorem readFloat64_cases (o : Operand) :
    (o.kind = Kind.float64 ∧ o.readFloat64 = .ok o.val) ∨
    (o.kind ≠ Kind.float64 ∧ o.readFloat64 = .error .typeMismatch) := by
  by_cases h : o.kind = Kind.float64
  · exact .inl ⟨h, by rw [Operand.readFloat64, if_pos h]⟩
  · exact .inr ⟨h, by rw [Operand.readFloat64, if_neg h]⟩

/-- Reading a QUALITY operand: its payload, or TYPE_MISMATCH. -/
theorem readQuality_cases (o : Operand) :
    (o.kind = Kind.quality ∧ o.readQuality = .ok o.val) ∨
    (o.kind ≠ Kind.quality ∧ o.readQuality = .error .typeMismatch) := by
  by_cases h : o.kind = Kind.quality
  · exact .inl ⟨h, by rw [Operand.readQuality, if_pos h]⟩
  · exact .inr ⟨h, by rw [Operand.readQuality, if_neg h]⟩

end Sys2Proof.Machine
end

