-- ==== Sys2Proof/Laws/Engine.lean ====
section
/-! SUPPORT. What the engine functions can do, said once. -/

namespace Sys2Proof.Machine

/-- Every length a sequence in a buffer can have has length bytes. -/
theorem berlen_answers {n : Nat} (h : n ≤ 2 ^ 32 - 1) : ∃ t, berlen n = .ok t := by
  have h1 : ¬ ((n : Int) < 0 ∨ (n : Int) > 2 ^ 32 - 1) := by omega
  unfold berlen
  rw [if_neg h1]
  split_ifs <;> exact ⟨_, rfl⟩

/-- `berlen` fails only with RANGE_LENGTH. -/
theorem berlen_error {l : Int} {e : ErrorCode} (h : berlen l = .error e) : e = .rangeLength := by
  unfold berlen at h
  split_ifs at h
  cases h
  rfl

/-- A frame that answers is TAG, the length bytes, the value. -/
theorem frame_ok {tag : Byte} {v t : List Byte} (h : frame tag v = .ok t) :
    ∃ l, berlen v.length = .ok l ∧ t = tag :: (l ++ v) := by
  obtain ⟨l, hl, ht⟩ := except_bind_ok h
  cases ht
  exact ⟨l, hl, rfl⟩

/-- A value of at most 2^32 - 1 bytes always frames. -/
theorem frame_answers (tag : Byte) {v : List Byte} (h : v.length ≤ 2 ^ 32 - 1) : ∃ t, frame tag v = .ok t := by
  obtain ⟨l, hl⟩ := berlen_answers h
  exact ⟨tag :: (l ++ v), by simp [frame, hl]⟩

/-- A frame fails only with RANGE_LENGTH, and only for a value no buffer holds. -/
theorem frame_error {tag : Byte} {v : List Byte} {e : ErrorCode} (h : frame tag v = .error e) :
    e = .rangeLength ∧ 2 ^ 32 - 1 < v.length := by
  refine ⟨?_, ?_⟩
  · rcases except_bind_error h with h | ⟨l, _, h⟩
    · exact berlen_error h
    · cases h
  · by_contra hle
    obtain ⟨t, ht⟩ := frame_answers tag (Nat.not_lt.1 hle)
    rw [ht] at h
    cases h

/-- A length field that parses lies inside the sequence. -/
theorem parselen_ok {s : List Byte} {p l q : Nat} (h : parselen s p = .ok (l, q)) : p < q ∧ q ≤ s.length := by
  unfold parselen at h
  split at h
  · cases h
  · rename_i b hb
    have hp := (List.getElem?_eq_some_iff.1 hb).1
    simp only at h
    split_ifs at h <;> cases h <;> omega

/-- `parselen` fails only with TRUNCATED or MALFORMED_LENGTH. -/
theorem parselen_error {s : List Byte} {p : Nat} {e : ErrorCode} (h : parselen s p = .error e) :
    e = .truncated ∨ e = .malformedLength := by
  unfold parselen at h
  split at h
  · cases h; simp
  · simp only at h
    split_ifs at h <;> cases h <;> simp

/-- A sequence that unframes starts with the tag, and its value is what follows the length field, as long as that says. -/
theorem unframe_ok {s v : List Byte} {tag : Byte} (h : unframe s tag = .ok v) :
    s[0]? = some tag ∧ ∃ q, parselen s 1 = .ok (v.length, q) ∧ v = s.drop q := by
  unfold unframe at h
  split at h
  · cases h
  · rename_i b hb
    split_ifs at h with hne
    obtain ⟨⟨l, q⟩, hp, h⟩ := except_bind_ok h
    simp only at h
    split_ifs at h with h1 h2
    cases h
    refine ⟨by rw [hb, not_not.1 hne], q, ?_, rfl⟩
    rw [hp, List.length_drop]
    congr 2
    omega

/-- The value is shorter than the TLV (40_tlv_engine.md R87). -/
theorem unframe_shorter {s v : List Byte} {tag : Byte} (h : unframe s tag = .ok v) : v.length < s.length := by
  obtain ⟨_, q, hp, hv⟩ := unframe_ok h
  have := parselen_ok hp
  rw [hv, List.length_drop]
  omega

/-- `unframe` fails only with a framing error. -/
theorem unframe_error {s : List Byte} {tag : Byte} {e : ErrorCode} (h : unframe s tag = .error e) :
    e ∈ [.truncated, .wrongTag, .malformedLength, .incomplete, .extraTrailing] := by
  unfold unframe at h
  split at h
  · cases h; simp
  · split_ifs at h
    · cases h; simp
    · rcases except_bind_error h with h | ⟨⟨l, q⟩, _, h⟩
      · rcases parselen_error h with rfl | rfl <;> simp
      · simp only at h
        split_ifs at h <;> cases h <;> simp

/-- Emitting a value portion that answers is an append of it, framed unless RAW. -/
theorem emitValue_ok {s s' : State} {raw : Bool} {tag : Byte} {v : List Byte}
    (h : s.emitValue raw tag v = .ok s') :
    ∃ t, (if raw then t = v else frame tag v = .ok t) ∧ s.append t = .ok s' := by
  cases raw with
  | true => exact ⟨v, by simp, by simpa [State.emitValue] using h⟩
  | false =>
    simp only [State.emitValue] at h
    obtain ⟨t, ht, ha⟩ := except_bind_ok h
    exact ⟨t, by simpa using ht, ha⟩

/-- Emitting a value portion of fewer than 2^32 bytes fails only with CAPACITY. -/
theorem emitValue_error {s : State} {raw : Bool} {tag : Byte} {v : List Byte} {e : ErrorCode}
    (hv : v.length ≤ 2 ^ 32 - 1) (h : s.emitValue raw tag v = .error e) : e = .capacity := by
  cases raw with
  | true => exact (append_error (by simpa [State.emitValue] using h)).1
  | false =>
    simp only [State.emitValue] at h
    rcases except_bind_error h with h | ⟨t, _, h⟩
    · exact absurd (frame_error h).2 (Nat.not_lt.2 hv)
    · exact (append_error h).1

@[simp] theorem emitValue_raw (s : State) (tag : Byte) (v : List Byte) : s.emitValue true tag v = s.append v := rfl

@[simp] theorem takeValue_raw (s : State) (tag : Byte) : s.takeValue true tag = .ok s.inBytes := rfl

@[simp] theorem takeValue_framed (s : State) (tag : Byte) : s.takeValue false tag = unframe s.inBytes tag := rfl

end Sys2Proof.Machine
end

