-- ==== Sys2Proof/Laws/Float.lean ====
section
/-! SUPPORT. What rounding does, said once. -/

namespace Sys2Proof.Machine

/-- Rounding half to even: the result is within half a unit of `n / d`, and even where it is exactly half a unit away. -/
theorem roundHalfEven_spec (n d : Nat) (hd : 0 < d) :
    2 * n ≤ 2 * (roundHalfEven n d * d) + d ∧ 2 * (roundHalfEven n d * d) ≤ 2 * n + d ∧
    (2 * n = 2 * (roundHalfEven n d * d) + d ∨ 2 * (roundHalfEven n d * d) = 2 * n + d →
      roundHalfEven n d % 2 = 0) := by
  have hn : n / d * d + n % d = n := Nat.div_add_mod' n d
  have hr := Nat.mod_lt n hd
  have hs : (n / d + 1) * d = n / d * d + d := by ring
  unfold roundHalfEven
  simp only
  split_ifs with h1 h2 h3
  · refine ⟨by omega, by omega, ?_⟩
    rintro (h | h) <;> omega
  · rw [hs]
    refine ⟨by omega, by omega, ?_⟩
    rintro (h | h) <;> omega
  · exact ⟨by omega, by omega, fun _ => h3⟩
  · rw [hs]
    exact ⟨by omega, by omega, fun _ => by omega⟩

/-- A fraction below one, times `k`, rounds to at most `k`. -/
theorem roundHalfEven_fraction_le {m u : Nat} (k : Nat) (h : m < u) : roundHalfEven (m * k) u ≤ k := by
  have hs := (roundHalfEven_spec (m * k) u (by omega)).2.1
  by_contra hgt
  have h1 : (k + 1) * u ≤ roundHalfEven (m * k) u * u := Nat.mul_le_mul_right _ (by omega)
  have h2 : m * k ≤ u * k := Nat.mul_le_mul_right _ h.le
  have h3 : (k + 1) * u = u * k + u := by ring
  omega

theorem two_pow_pos_of_eq {n k : Nat} (h : n = 2 ^ k) : 0 < n := h ▸ Nat.two_pow_pos k

set_option exponentiation.threshold 1100 in
theorem f64Unit_eq : f64Unit = 2 ^ 1074 := by unfold f64Unit; rfl

theorem f64Unit_pos : 0 < f64Unit := two_pow_pos_of_eq f64Unit_eq

/-- The unit as a rational, for the values of `Safety.f64Value`. -/
theorem f64Unit_cast : (f64Unit : ℚ) = 2 ^ 1074 := by rw [f64Unit_eq, Nat.cast_pow, Nat.cast_ofNat]

/-- The fraction field stays within 24 bits once the carry is taken out (42_quality_timestamp.md R135). -/
theorem timestampFields_snd_lt (b : DWord) : (timestampFields b).2 < 2 ^ 24 := by
  have hle := roundHalfEven_fraction_le (2 ^ 24) (Nat.mod_lt (f64Scaled b) f64Unit_pos)
  rw [timestampFields]
  split_ifs with h1
  · exact Nat.two_pow_pos 24
  · exact Nat.lt_of_le_of_ne hle h1

/-- The value of a positive normal pattern with biased exponent at most 1075, its powers of two cancelled. -/
theorem f64Value_of_normal {b : DWord} {e m k : Nat} (hs : b[63] = false) (he : (b.extractLsb' 52 11).toNat = e)
    (hm : (b.extractLsb' 0 52).toNat = m) (h0 : e ≠ 0) (hk : e + k = 1075) :
    Safety.f64Value b = ((2 ^ 52 + m : ℕ) : ℚ) / 2 ^ k := by
  have hp : (2 : ℚ) ^ e ≠ 0 := by positivity
  rw [Safety.f64Value, hs, he, hm, if_neg Bool.false_ne_true, if_neg h0, one_mul, ← hk, pow_add,
    mul_comm ((2 : ℚ) ^ e), mul_div_mul_right _ _ hp]

end Sys2Proof.Machine
end

