-- ==== Sys2Proof/Laws/PerInstr.lean ====
section
/-! SUPPORT. Facts about every command, one lemma per constructor. -/

namespace Sys2Proof.Laws

/-- The four byte fields of four bytes put together. -/
theorem fields_of_bytes (a b c d : Byte) :
    opField (a ++ b ++ c ++ d) = d ∧ tagField (a ++ b ++ c ++ d) = c ∧
    modField (a ++ b ++ c ++ d) = b ∧ rsvField (a ++ b ++ c ++ d) = a := by
  refine ⟨?_, ?_, ?_, ?_⟩ <;>
  · simp only [opField, tagField, modField, rsvField]
    ext i hi
    simp
    grind

namespace EncodedFields

/-- The word of a command holds its OP, TAG and MOD in their fields and 0 in RSV (30_encoding.md R60). -/
def Statement (i : Instr) : Prop :=
  opField (encode i) = i.opcode ∧ tagField (encode i) = i.tagByte ∧
  modField (encode i) = i.modByte ∧ rsvField (encode i) = 0

theorem lenenc : Statement .lenenc := fields_of_bytes _ _ _ _
theorem lendec : Statement .lendec := fields_of_bytes _ _ _ _
theorem tlvenc (tag : Byte) : Statement (.tlvenc tag) := fields_of_bytes _ _ _ _
theorem tlvdec (tag : Byte) : Statement (.tlvdec tag) := fields_of_bytes _ _ _ _
theorem wrap (tag : Byte) : Statement (.wrap tag) := fields_of_bytes _ _ _ _
theorem boolenc (raw : Bool) (tag : Byte) : Statement (.boolenc raw tag) := fields_of_bytes _ _ _ _
theorem booldec (raw : Bool) (tag : Byte) : Statement (.booldec raw tag) := fields_of_bytes _ _ _ _
theorem sintenc (raw : Bool) (tag : Byte) : Statement (.sintenc raw tag) := fields_of_bytes _ _ _ _
theorem sintdec (raw : Bool) (tag : Byte) : Statement (.sintdec raw tag) := fields_of_bytes _ _ _ _
theorem uintenc (raw : Bool) (tag : Byte) : Statement (.uintenc raw tag) := fields_of_bytes _ _ _ _
theorem uintdec (raw : Bool) (tag : Byte) : Statement (.uintdec raw tag) := fields_of_bytes _ _ _ _
theorem fltenc (prec : Prec) (raw : Bool) (tag : Byte) : Statement (.fltenc prec raw tag) := fields_of_bytes _ _ _ _
theorem fltdec (prec : Prec) (raw : Bool) (tag : Byte) : Statement (.fltdec prec raw tag) := fields_of_bytes _ _ _ _
theorem qualenc (raw : Bool) (tag : Byte) : Statement (.qualenc raw tag) := fields_of_bytes _ _ _ _
theorem qualdec (raw : Bool) (tag : Byte) : Statement (.qualdec raw tag) := fields_of_bytes _ _ _ _
theorem tsenc (raw : Bool) (tag : Byte) : Statement (.tsenc raw tag) := fields_of_bytes _ _ _ _
theorem tsdec (raw : Bool) (tag : Byte) : Statement (.tsdec raw tag) := fields_of_bytes _ _ _ _
theorem clrout : Statement .clrout := fields_of_bytes _ _ _ _
theorem clrst : Statement .clrst := fields_of_bytes _ _ _ _
theorem movoi : Statement .movoi := fields_of_bytes _ _ _ _

end EncodedFields

end Sys2Proof.Laws
end

