-- ==== Sys2Proof/Tests/Slice0.lean ====
section
/-! SUPPORT. Tests of one step each, with results taken from spec/95_test_vectors.md, spec/30_encoding.md R70 and the
corner cases of the command rules; and a witness for the hypotheses of every statement. -/

namespace Sys2Proof.Tests

open Sys2Proof.Machine Sys2Proof.Safety

/-! Helpers. -/

/-- The state after reset for capacity `cap` and `OPA <- (k, v)`. -/
def withOpa (cap : Word) (k : BitVec 4) (v : DWord) : State :=
  { State.resetWith { bufCap := cap, doubleDisc := 0x11 } with opa := { kind := k, val := v } }

/-- `OPB <- (k, v)`. -/
def andOpb (s : State) (k : BitVec 4) (v : DWord) : State := { s with opb := { kind := k, val := v } }

/-- `IN <- bs`. -/
def withIn (s : State) (bs : List Byte) : State :=
  { s with input := s.input.write 0 bs, inLen := BitVec.ofNat 32 bs.length }

/-- OUT holding `bs`. -/
def withOut (s : State) (bs : List Byte) : State :=
  { s with output := s.output.write 0 bs, outLen := BitVec.ofNat 32 bs.length }

/-- The state after reset with IN holding `bs`. -/
def fed (bs : List Byte) : State := withIn State.reset bs

/-- CODE and the contents of OUT after a command. -/
def emitted (i : Instr) (s : State) : Option (Byte × List Byte) :=
  match exec i s with
  | .next t => some (t.status.code, t.outBytes)
  | _ => none

/-- CODE, OPA and OPB after a command. -/
def operands (i : Instr) (s : State) : Option (Byte × Operand × Operand) :=
  match exec i s with
  | .next t => some (t.status.code, t.opa, t.opb)
  | _ => none

/-- STATUS and OUT_LEN after a CMD write of the word. -/
def statusAfter (w : Nat) (s : State) : Option (Word × Word) :=
  match step (s.withFetchWord 32 w) with
  | .next t => some (t.status.word, t.outLen)
  | _ => none

/-- A command answers a next state. -/
def answers (i : Instr) (s : State) : Bool :=
  match exec i s with
  | .next _ => true
  | _ => false

/-! WellFormed: the one check, in each command that has it, refuses RAW = 1 with TAG not 0 (30_encoding.md R66). -/

theorem test_wf_refuses_raw_with_tag :
    [Instr.boolenc true 1, .booldec true 0x80, .sintenc true 1, .sintdec true 1, .uintenc true 1, .uintdec true 1,
     .fltenc .single true 1, .fltdec .double true 0x87, .qualenc true 1, .qualdec true 1, .tsenc true 1,
     .tsdec true 0xFF].all (fun i => !i.wf) = true := by decide

theorem test_wf_accepts :
    [Instr.boolenc true 0, .boolenc false 0x83, .fltdec .double false 0xFF, .tlvenc 0xAB, .clrst].all Instr.wf = true := by
  decide

/-! Decode: every constructor from a word written out from 30_encoding.md R60, R63, R65. -/

theorem test_decode_engine :
    decode 0b00000000000000000000000000000001 = .ok .lenenc ∧
    decode 0b00000000000000000000000000000010 = .ok .lendec ∧
    decode 0b00000000000000001000000000000011 = .ok (.tlvenc 0x80) ∧
    decode 0b00000000000000001000010100000100 = .ok (.tlvdec 0x85) ∧
    decode 0b00000000000000000110000100000101 = .ok (.wrap 0x61) := by decide

theorem test_decode_scalar :
    decode 0b00000000000000001000001100010000 = .ok (.boolenc false 0x83) ∧
    decode 0b00000000000000010000000000010001 = .ok (.booldec true 0) ∧
    decode 0b00000000000000010000000000010010 = .ok (.sintenc true 0) ∧
    decode 0b00000000000000001000010100010011 = .ok (.sintdec false 0x85) ∧
    decode 0b00000000000000001000000100010100 = .ok (.uintenc false 0x81) ∧
    decode 0b00000000000000010000000000010101 = .ok (.uintdec true 0) ∧
    decode 0b00000000000000101000011100010110 = .ok (.fltenc .double false 0x87) ∧
    decode 0b00000000000000010000000000010111 = .ok (.fltdec .single true 0) := by decide

theorem test_decode_quality_time_control :
    decode 0b00000000000000010000000000100000 = .ok (.qualenc true 0) ∧
    decode 0b00000000000000001000010000100001 = .ok (.qualdec false 0x84) ∧
    decode 0b00000000000000001000010000100010 = .ok (.tsenc false 0x84) ∧
    decode 0b00000000000000010000000000100011 = .ok (.tsdec true 0) ∧
    decode 0b00000000000000000000000000110000 = .ok .clrout ∧
    decode 0b00000000000000000000000000110001 = .ok .clrst ∧
    decode 0b00000000000000000000000000110010 = .ok .movoi := by decide

/-- X1 to X12 of 95_test_vectors.md, each refused by name. -/
theorem test_decode_refuses :
    decode 0x00000000 = .error .unassignedOpcode ∧ decode 0x00000006 = .error .unassignedOpcode ∧
    decode 0x000000FF = .error .unassignedOpcode ∧ decode 0x01000003 = .error .reservedField ∧
    decode 0x00010003 = .error .modNotAllowed ∧ decode 0x00000101 = .error .tagNotAllowed ∧
    decode 0x00020010 = .error .modNotAllowed ∧ decode 0x00040016 = .error .modNotAllowed ∧
    decode 0x00018310 = .error .rawWithTag ∧ decode 0x00008030 = .error .tagNotAllowed ∧
    decode 0x00038717 = .error .rawWithTag ∧ decode 0x80000012 = .error .reservedField := by decide

/-- The example words of 30_encoding.md R70, as encoded and as an assembler writes them. -/
theorem test_encode_examples :
    encode (.tlvenc 0x80) = 0x00008003 ∧ encode (.sintenc true 0) = 0x00010012 ∧
    encode (.fltenc .double false 0x87) = 0x00028716 ∧ encode (.fltdec .single true 0) = 0x00010017 ∧
    newmsg.map encode = [0x00000030, 0x00000031] := by decide

theorem test_assembly_examples :
    (Instr.tlvenc 0x80).assembly = "TLVENC 0x80" ∧ (Instr.sintenc true 0).assembly = "SINTENC.raw" ∧
    (Instr.fltenc .double false 0x87).assembly = "FLTENC.d 0x87" ∧
    (Instr.fltdec .single true 0).assembly = "FLTDEC.s.raw" ∧ Instr.clrout.assembly = "CLROUT" := by decide

/-! The TLV engine (vectors T). -/

theorem test_lenenc : emitted .lenenc (withOpa 1500 2 65536) = some (0, [0x84, 0x00, 0x01, 0x00, 0x00]) := by
  decide
theorem test_lenenc_range : emitted .lenenc (withOpa 1500 2 4294967296) = some (0x24, []) := by decide
theorem test_lendec_non_minimal :
    operands .lendec (fed [0x82, 0x00, 0x05]) = some (0, ⟨2, 5⟩, ⟨0, 0⟩) := by decide
theorem test_lendec_malformed : operands .lendec (fed [0x80]) = some (0x32, ⟨0, 0⟩, ⟨0, 0⟩) := by decide
theorem test_tlvenc_exact_fit :
    emitted (.tlvenc 0x30) (withIn (withOpa 16 0 0) (List.replicate 14 0xAA)) =
      some (0, 0x30 :: 0x0E :: List.replicate 14 0xAA) := by decide
theorem test_tlvenc_capacity :
    emitted (.tlvenc 0x30) (withIn (withOpa 16 0 0) (List.replicate 15 0xAA)) = some (0x51, []) := by decide
theorem test_tlvdec :
    emitted (.tlvdec 0xAB) (withOut (fed [0xAB, 0x03, 0x83, 0x01, 0x0F]) [0xEE]) = some (0, [0x83, 0x01, 0x0F]) := by
  decide
theorem test_tlvdec_trailing :
    emitted (.tlvdec 0x85) (withOut (fed [0x85, 0x01, 0xFF, 0x00]) [0xEE]) = some (0x34, [0xEE]) := by decide
theorem test_wrap :
    emitted (.wrap 0x61) (withOut State.reset [0xAB, 0x03, 0x83, 0x01, 0x0F]) =
      some (0, [0x61, 0x05, 0xAB, 0x03, 0x83, 0x01, 0x0F]) := by decide
theorem test_wrap_long_form :
    (emitted (.wrap 0x61) (withOut State.reset (List.replicate 128 0xBB))).map (fun p => (p.1, p.2.take 4, p.2.length)) =
      some (0, [0x61, 0x81, 0x80, 0xBB], 131) := by decide +kernel

/-! The scalar codecs (vectors S). -/

theorem test_boolenc : emitted (.boolenc false 0x83) (withOpa 1500 1 0x8000000000000000) = some (0, [0x83, 0x01, 0x0F]) := by
  decide
theorem test_boolenc_reserved_kind : emitted (.boolenc false 0x83) (withOpa 1500 9 1) = some (0x10, []) := by decide
theorem test_booldec_any_nonzero :
    operands (.booldec false 0x83) (fed [0x83, 0x01, 0x80]) = some (0, ⟨1, 1⟩, ⟨0, 0⟩) := by decide
theorem test_booldec_wrong_tag :
    operands (.booldec false 0x83) (fed [0x84, 0x01, 0x01]) = some (0x30, ⟨0, 0⟩, ⟨0, 0⟩) := by decide
theorem test_sintenc : emitted (.sintenc false 0x85) (withOpa 1500 2 (-129)) = some (0, [0x85, 0x02, 0xFF, 0x7F]) := by
  decide
theorem test_sintenc_eight_bytes :
    emitted (.sintenc true 0) (withOpa 1500 2 0x80000000) = some (0, [0, 0, 0, 0, 0x80, 0, 0, 0]) := by decide
theorem test_sintdec : operands (.sintdec true 0) (fed [0x80, 0, 0, 0]) = some (0, ⟨2, -2147483648⟩, ⟨0, 0⟩) := by
  decide
theorem test_sintdec_length : operands (.sintdec true 0) (fed [0, 0, 0]) = some (0x36, ⟨0, 0⟩, ⟨0, 0⟩) := by decide
theorem test_uintenc : emitted (.uintenc false 0x81) (withOpa 1500 2 1000) = some (0, [0x81, 0x02, 0x03, 0xE8]) := by
  decide
theorem test_uintenc_negative : emitted (.uintenc true 0) (withOpa 1500 2 (-1)) = some (0x20, []) := by decide
theorem test_uintdec : operands (.uintdec true 0) (fed [0xFF]) = some (0, ⟨2, 255⟩, ⟨0, 0⟩) := by decide
theorem test_uintdec_incomplete :
    operands (.uintdec false 0x85) (fed [0x85, 0x02, 0xFF]) = some (0x33, ⟨0, 0⟩, ⟨0, 0⟩) := by decide
theorem test_fltenc_high_half_ignored :
    emitted (.fltenc .single false 0x87) (withOpa 1500 3 0xFFFFFFFF3F800000) =
      some (0, [0x87, 0x05, 0x08, 0x3F, 0x80, 0x00, 0x00]) := by decide
theorem test_fltenc_double :
    emitted (.fltenc .double false 0x87) (withOpa 1500 4 0x7FF8000000000001) =
      some (0, [0x87, 0x09, 0x11, 0x7F, 0xF8, 0, 0, 0, 0, 0, 0x01]) := by decide
theorem test_fltdec :
    operands (.fltdec .single false 0x87) (fed [0x87, 0x05, 0x08, 0x3F, 0x80, 0x00, 0x00]) =
      some (0, ⟨3, 0x3F800000⟩, ⟨0, 0⟩) := by decide
theorem test_fltdec_other_disc :
    operands (.fltdec .double false 0x87) (fed [0x87, 0x09, 0x08, 0x7F, 0xF8, 0, 0, 0, 0, 0, 0x01]) =
      some (0x35, ⟨0, 0⟩, ⟨0, 0⟩) := by decide

/-! Quality and Timestamp (vectors Q, TS). -/

theorem test_qualenc : emitted (.qualenc true 0) (andOpb State.reset 5 0xA01) = some (0, [0x8A]) := by decide
theorem test_qualenc_range : emitted (.qualenc true 0) (andOpb State.reset 5 0x1900) = some (0x23, []) := by decide
theorem test_qualdec : operands (.qualdec true 0) (fed [0x98]) = some (0, ⟨0, 0⟩, ⟨5, 0x1801⟩) := by decide
theorem test_qualdec_range : operands (.qualdec true 0) (fed [0x1E]) = some (0x26, ⟨0, 0⟩, ⟨0, 0⟩) := by decide
theorem test_tsenc_carry :
    emitted (.tsenc true 0) (andOpb (withOpa 1500 4 0x3FEFFFFFFAA19C47) 5 4) = some (0, [0, 0, 0, 1, 0, 0, 0, 0x20]) := by
  decide +kernel
theorem test_tsenc_tie_to_even :
    emitted (.tsenc true 0) (andOpb (withOpa 1500 4 0x3E78000000000000) 5 4) = some (0, [0, 0, 0, 0, 0, 0, 2, 0x20]) := by
  decide +kernel
theorem test_tsdec :
    operands (.tsdec true 0) (fed [0xFF, 0xFF, 0xFF, 0xFF, 0x80, 0, 0, 0x0A]) =
      some (0, ⟨4, 0x41EFFFFFFFF00000⟩, ⟨5, 0xA00⟩) := by decide
theorem test_tsdec_tenth :
    operands (.tsdec true 0) (fed [0, 0, 0, 0, 0x19, 0x99, 0x9A, 0x1F]) =
      some (0, ⟨4, 0x3FB9999A00000000⟩, ⟨5, 0x1F00⟩) := by decide

/-! Control, illegal words and the port (vectors X, program P2). -/

theorem test_clrout : statusAfter 0x30 (withOut State.reset [1, 2, 3, 4]) = some (0x00003000, 0) := by decide
theorem test_clrst :
    statusAfter 0x31 { State.reset with status := { code := 0x50, lastop := 0, sticky := true } } =
      some (0x00003100, 0) := by decide
theorem test_movoi :
    (match exec .movoi (withOut State.reset [0x83, 0x01, 0x0F]) with
      | .next t => some (t.inBytes, t.inLen, t.outLen)
      | _ => none) = some ([0x83, 0x01, 0x0F], 3, 0) := by decide
theorem test_illegal_word : statusAfter 0x00038717 State.reset = some (0x80001750, 0) := by decide
theorem test_wrong_tag_status :
    statusAfter 0x8513 (fed [0x86, 0x01, 0x00]) = some (0x80001330, 0) := by decide
theorem test_in_len_guard :
    (match step { State.reset with pending := [.writeReg 6 1501] } with
      | .next t => some t.inLen
      | _ => none) = some 0 := by decide

/-! ## Witnesses: for every statement with hypotheses, a concrete state and operands that meet them all. -/

/-- The state after reset for capacity 16 with `fill` bytes in OUT, OPA and OPB as given. -/
def tiny (fill : Nat) (a b : Operand) : State :=
  withOut { State.resetWith { bufCap := 16, doubleDisc := 0x0B } with opa := a, opb := b } (List.replicate fill 0x55)

/-- An access pending at the port. -/
def asked (a : HostAction) : State := { State.reset with pending := [a] }

/-- `n` wire bytes fit `tiny` exactly with `16 - n` bytes in OUT, and miss by one with `17 - n`. -/
def fitsExactly (n : Nat) (a b : Operand) : Bool :=
  (tiny (16 - n) a b).outLen.toNat + n == (tiny (16 - n) a b).cap &&
  (tiny (17 - n) a b).outLen.toNat + n == (tiny (17 - n) a b).cap + 1

theorem inHolds_withIn (s : State) (bs : List Byte) (h : bs.length < 2 ^ 32) : InHolds (withIn s bs) bs := by
  refine ⟨(Nat.mod_eq_of_lt h).symm, fun k hk => ?_⟩
  show ({ s with input := s.input.write 0 bs } : State).inByte k = bs[k]
  rw [inByte_write]
  simp [hk]

theorem takesValue_raw (s : State) (tag : Byte) (v : List Byte) (h : v.length < 2 ^ 32) :
    TakesValue true tag (withIn s v) v :=
  ⟨v, inHolds_withIn s v h, by simp⟩

/-- A value with a non-minimal length field `0x82 hi lo` before it. -/
theorem takesValue_framed (s : State) (tag : Byte) (v : List Byte) (h : v.length ≤ 65535) :
    TakesValue false tag (withIn s (tag :: ([0x82, BitVec.ofNat 8 (v.length / 256), BitVec.ofNat 8 v.length] ++ v))) v := by
  refine ⟨_, inHolds_withIn s _ (by simp; omega), ?_⟩
  simp only [Bool.false_eq_true, if_false]
  refine ⟨[0x82, BitVec.ofNat 8 (v.length / 256), BitVec.ofNat 8 v.length], ⟨rfl, ?_⟩, rfl⟩
  simp only [BitVec.toNat_append, BitVec.toNat_ofNat, Nat.shiftLeft_eq]
  rw [← Nat.shiftLeft_eq, ← Nat.shiftLeft_add_eq_or_of_lt (by omega), Nat.shiftLeft_eq]
  omega

theorem witness_DecodeOfEncodeIsIdentity : (Instr.fltenc .double false 0xFF).wf = true ∧ (Instr.tsdec true 0).wf = true := by
  decide
theorem witness_EncodeOfDecodeIsIdentity : decode 0x0002FF17 = .ok (.fltdec .double false 0xFF) := by decide
theorem witness_StepRunsDecodedCommand :
    (asked (.writeReg 0 0xFFFFFFFF0000FF05)).pending = .writeReg 0 0xFFFFFFFF0000FF05 :: [] ∧
    decode ((0xFFFFFFFF0000FF05 : DWord).setWidth 32) = .ok (.wrap 0xFF) := by decide
theorem witness_IllegalWordWritesStatusOnly :
    (asked (.writeReg 0 0x00018310)).pending = .writeReg 0 0x00018310 :: [] ∧
    legal ((0x00018310 : DWord).setWidth 32) = false := by decide
theorem witness_EmptyPortLeavesStateAlone : State.reset.pending = [] := rfl
theorem witness_EveryCmdWriteSetsLastop :
    (asked (.writeReg 0 0xFF)).pending = .writeReg 0 0xFF :: [] := rfl
/-- A command that ends in an error and one that completes: both clauses of ErrorWritesStatusOnly, and the hypothesis of
CommandRaisesListedCodesOnly. -/
theorem witness_ErrorWritesStatusOnly :
    exec .lenenc State.reset = .next (errored State.reset 0x01 0x10) ∧
    (errored State.reset 0x01 0x10).status.code ≠ 0 ∧
    exec .clrst State.reset = .next { State.reset with status := { code := 0, lastop := 0x31, sticky := false } } :=
  ⟨rfl, by decide, rfl⟩
theorem witness_StickyBitRule :
    (asked .reset).pending = .reset :: [] ∧ (∃ t, step (asked .reset) = .next t) ∧
    (asked (.writeReg 0 0x31)).pending = .writeReg 0 0x31 :: [] ∧ (∃ t, step (asked (.writeReg 0 0x31)) = .next t) ∧
    (asked (.writeReg 0 0)).pending = .writeReg 0 0 :: [] ∧ (∃ t, step (asked (.writeReg 0 0)) = .next t) ∧
    (asked (.writeReg 1 0)).pending = .writeReg 1 0 :: [] ∧ (∃ t, step (asked (.writeReg 1 0)) = .next t) :=
  ⟨rfl, ⟨_, rfl⟩, rfl, ⟨_, rfl⟩, rfl, ⟨_, rfl⟩, rfl, ⟨_, rfl⟩⟩
/-- A state of capacity 16, full to the last byte, with a command pending, that satisfies the invariant. -/
theorem witness_StepKeepsInvariant :
    Inv { tiny 16 ⟨2, 5⟩ ⟨0, 0⟩ with pending := [.writeReg 0 0x6105] } ∧
    ∃ t, step { tiny 16 ⟨2, 5⟩ ⟨0, 0⟩ with pending := [.writeReg 0 0x6105] } = .next t := by
  refine ⟨⟨rfl, rfl, by decide, fun _ _ => rfl, fun a => ?_, by decide, by decide, by decide, by decide⟩, ⟨_, rfl⟩⟩
  show (((State.reset.output.write 0 (List.replicate 16 0x55)).lookup a).isSome = true) ↔ a < 16
  rw [Memory.lookup_write]
  by_cases h : a < 16
  · simp [h]
  · simp [h, State.reset, State.resetWith]
theorem witness_ResetSatisfiesInvariant :
    ({ bufCap := 16, doubleDisc := 0x0B } : Config.Params).ok = true ∧
    ({ bufCap := 0xFFFFFFFF, doubleDisc := 0x09 } : Config.Params).ok = true := by decide
theorem witness_ParametersNeverChange :
    (∃ t, step (asked .reset) = .next t) ∧ (asked (.readReg 8)).pending = .readReg 8 :: [] := ⟨⟨_, rfl⟩, rfl⟩
/-- Two states that differ in the bytes of IN and OUT above IN_LEN and OUT_LEN. -/
theorem witness_CommandIgnoresBytesBeyondLengths :
    SameVisible State.reset { State.reset with input := ⟨[(0, 0xEE)], 7⟩, output := ⟨[(3, 0x11)], 9⟩ } ∧
    (∃ t, exec (.tlvenc 0x80) State.reset = .next t) ∧
    ∃ t, exec (.tlvenc 0x80) { State.reset with input := ⟨[(0, 0xEE)], 7⟩, output := ⟨[(3, 0x11)], 9⟩ } = .next t :=
  ⟨⟨rfl, rfl, rfl, rfl, rfl, rfl, rfl, rfl, fun _ h => absurd h (Nat.not_lt_zero _),
    fun _ h => absurd h (Nat.not_lt_zero _)⟩, ⟨_, rfl⟩, ⟨_, rfl⟩⟩
theorem witness_OpbServesQualityOnly :
    Instr.movoi.opcode ∉ [0x20#8, 0x21#8, 0x22#8, 0x23#8] ∧ ∃ t, exec .movoi State.reset = .next t :=
  ⟨by decide, ⟨_, rfl⟩⟩
theorem witness_RegisterReadMap : (asked (.readReg 15)).pending = .readReg 15 :: [] := rfl
theorem witness_RegisterWriteMap :
    (asked (.writeReg 15 1)).pending = .writeReg 15 1 :: [] ∧ (15 : BitVec 4) ≠ 0 ∧ (15 : BitVec 4) ≠ 6 := by decide
/-- Each clause of HostBufferAccess, at the last index inside BUF_CAP and the first outside. -/
theorem witness_HostBufferAccess :
    (asked (.inWrite 1499 7)).pending = .inWrite 1499 7 :: [] ∧ 1499 < (asked (.inWrite 1499 7)).cap ∧
    (asked (.inWrite 1500 7)).pending = .inWrite 1500 7 :: [] ∧ (asked (.inWrite 1500 7)).cap ≤ 1500 ∧
    (asked (.inRead 1500)).pending = .inRead 1500 :: [] ∧ (asked (.outRead 1499)).pending = .outRead 1499 :: [] ∧
    (∀ v, HostAction.outRead 1499 ≠ .writeReg 0 v) ∧ ∃ t, step (asked (.outRead 1499)) = .next t :=
  ⟨rfl, by decide, rfl, by decide, rfl, rfl, (fun _ h => nomatch h), ⟨_, rfl⟩⟩
theorem witness_InLenWriteGuard :
    (asked (.writeReg 6 1500)).pending = .writeReg 6 1500 :: [] ∧
    (asked (.writeReg 6 1501)).pending = .writeReg 6 1501 :: [] := ⟨rfl, rfl⟩
theorem witness_RepeatedAccessChangesNothingMore :
    ({ State.reset with pending := [.inWrite 0 7, .inWrite 0 7] } : State).pending =
      .inWrite 0 7 :: .inWrite 0 7 :: [] ∧
    HostAction.inWrite 0 7 ≠ .reset ∧ (∀ v, HostAction.inWrite 0 7 ≠ .writeReg 0 v) ∧
    ∃ t, step { State.reset with pending := [.inWrite 0 7, .inWrite 0 7] } = .next t :=
  ⟨rfl, by decide, (fun _ h => nomatch h), ⟨_, rfl⟩⟩
theorem witness_ResetAccessRestoresResetValues : (asked .reset).pending = .reset :: [] := rfl
theorem witness_UnframeInvertsFrame :
    unframe [0x85, 0x81, 0x01, 0x07] 0x85 = .ok [0x07] ∧ ([0x07] : List Byte).length ≤ 2 ^ 32 - 1 := by decide
theorem witness_LengthBytesParseBack : 4294967295 ≤ 2 ^ 32 - 1 := by decide
theorem witness_LenencAppendsLength :
    (tiny 11 ⟨2, 4294967295⟩ ⟨0, 0⟩).opa.kind = 2 ∧
    (tiny 11 ⟨2, 4294967295⟩ ⟨0, 0⟩).opa.val.toInt = (4294967295 : Nat) ∧ 4294967295 ≤ 2 ^ 32 - 1 ∧
    (shortestLength 4294967295).length = 5 ∧ fitsExactly 5 ⟨2, 4294967295⟩ ⟨0, 0⟩ = true := by decide
theorem witness_LendecReadsLength :
    InHolds (fed [0x84, 0xFF, 0xFF, 0xFF, 0xFF]) [0x84, 0xFF, 0xFF, 0xFF, 0xFF] ∧
    LengthField [0x84, 0xFF, 0xFF, 0xFF, 0xFF] 4294967295 ∧ LengthField [0x7F] 127 ∧ LengthField [0x81, 0x05] 5 ∧
    LengthField [0x82, 0x00, 0x05] 5 :=
  ⟨inHolds_withIn _ _ (by decide), ⟨rfl, by decide⟩, ⟨by decide, by decide⟩, ⟨rfl, by decide⟩, ⟨rfl, by decide⟩⟩
theorem witness_LendecRefusesOtherInput :
    InHolds State.reset [] ∧ InHolds (fed [0x80]) [0x80] ∧ InHolds (fed [0x82, 0x01]) [0x82, 0x01] ∧
    InHolds (fed ([0x05] ++ [0x00])) ([0x05] ++ [0x00]) ∧ LengthField [0x05] 5 ∧
    0x80 ≤ (0x80#8).toNat ∧ 0x80#8 ∉ [0x81#8, 0x82#8, 0x84#8] ∧
    0x82#8 ∈ [0x81#8, 0x82#8, 0x84#8] ∧ [0x01#8].length < (0x82#8).toNat - 0x80 :=
  ⟨⟨rfl, fun k h => absurd h (Nat.not_lt_zero k)⟩, inHolds_withIn _ _ (by decide), inHolds_withIn _ _ (by decide),
    inHolds_withIn _ _ (by decide), ⟨by decide, by decide⟩, by decide, by decide, by decide, by decide⟩
theorem witness_TlvencAppendsFramedInput :
    InHolds (withIn (tiny 0 ⟨0, 0⟩ ⟨0, 0⟩) (List.replicate 14 0xAA)) (List.replicate 14 0xAA) ∧
    fitsExactly 16 ⟨0, 0⟩ ⟨0, 0⟩ = true := ⟨inHolds_withIn _ _ (by decide), by decide⟩
theorem witness_TlvdecReplacesOutput :
    InHolds (fed [0x85, 0x81, 0x01, 0x07]) [0x85, 0x81, 0x01, 0x07] ∧ IsTlv 0x85 [0x07] [0x85, 0x81, 0x01, 0x07] ∧
    InHolds (fed [0x85, 0x00]) [0x85, 0x00] ∧ IsTlv 0x85 [] [0x85, 0x00] :=
  ⟨inHolds_withIn _ _ (by decide), ⟨[0x81, 0x01], ⟨rfl, by decide⟩, rfl⟩, inHolds_withIn _ _ (by decide),
    ⟨[0x00], ⟨by decide, by decide⟩, rfl⟩⟩

theorem outHolds_withOut (s : State) (bs : List Byte) (h : bs.length < 2 ^ 32) : OutHolds (withOut s bs) bs := by
  refine ⟨(Nat.mod_eq_of_lt h).symm, fun k hk => ?_⟩
  show ({ s with output := s.output.write 0 bs } : State).outByte k = bs[k]
  rw [outByte_write]
  simp [hk]

/-- Fourteen bytes wrap to exactly 16, fifteen do not fit (T48, T49). -/
theorem witness_WrapFramesOutputInPlace :
    OutHolds (tiny 14 ⟨0, 0⟩ ⟨0, 0⟩) (List.replicate 14 0x55) ∧
    (0x61#8 :: (shortestLength 14 ++ List.replicate 14 0x55)).length ≤ (tiny 14 ⟨0, 0⟩ ⟨0, 0⟩).cap ∧
    OutHolds (tiny 15 ⟨0, 0⟩ ⟨0, 0⟩) (List.replicate 15 0x55) ∧
    (tiny 15 ⟨0, 0⟩ ⟨0, 0⟩).cap < (0x61#8 :: (shortestLength 15 ++ List.replicate 15 0x55)).length :=
  ⟨outHolds_withOut _ _ (by decide), by decide, outHolds_withOut _ _ (by decide), by decide⟩
/-- Each of the seven framing faults, at the inputs T26 to T33. -/
theorem witness_FramedDecodesReportFramingFault :
    FramingFault 0x85 [] 0x31 ∧ FramingFault 0x85 [0x86, 0x01, 0x00] 0x30 ∧ FramingFault 0x85 [0x85] 0x31 ∧
    FramingFault 0x85 [0x85, 0x80] 0x32 ∧ FramingFault 0x85 [0x85, 0x82, 0x00] 0x31 ∧
    FramingFault 0x85 [0x85, 0x02, 0xFF] 0x33 ∧ FramingFault 0x85 [0x85, 0x01, 0xFF, 0x00] 0x34 ∧
    InHolds (fed [0x85, 0x02, 0xFF]) [0x85, 0x02, 0xFF] :=
  ⟨.inl ⟨rfl, rfl⟩, .inr (.inl ⟨_, _, rfl, by decide, rfl⟩), .inr (.inr (.inl ⟨rfl, rfl⟩)),
    .inr (.inr (.inr (.inl ⟨_, _, rfl, by decide, by decide, rfl⟩))),
    .inr (.inr (.inr (.inr (.inl ⟨_, _, rfl, by decide, by decide, rfl⟩)))),
    .inr (.inr (.inr (.inr (.inr (.inl ⟨[0x02], [0xFF], 2, rfl, ⟨by decide, by decide⟩, by decide, rfl⟩))))),
    .inr (.inr (.inr (.inr (.inr (.inr ⟨[0x01], [0xFF, 0x00], 1, rfl, ⟨by decide, by decide⟩, by decide, rfl⟩))))),
    inHolds_withIn _ _ (by decide)⟩
theorem witness_BoolencAppendsBoolean :
    (tiny 0 ⟨0, 5⟩ ⟨0, 0⟩).opa.kind = 0 ∧ fitsExactly 2 ⟨0, 5⟩ ⟨0, 0⟩ = true ∧
    (tiny 0 ⟨1, 0x8000000000000000⟩ ⟨0, 0⟩).opa.kind = 1 ∧ (tiny 0 ⟨1, 0x8000000000000000⟩ ⟨0, 0⟩).opa.val ≠ 0 ∧
    fitsExactly 3 ⟨1, 0x8000000000000000⟩ ⟨0, 0⟩ = true ∧
    (tiny 0 ⟨1, 0⟩ ⟨0, 0⟩).opa.kind = 1 ∧ (tiny 0 ⟨1, 0⟩ ⟨0, 0⟩).opa.val = 0 := by decide
theorem witness_BooldecReadsBoolean :
    TakesValue true 0 (withIn State.reset []) [] ∧
    TakesValue false 0x83 (withIn State.reset (0x83 :: ([0x82, 0x00, 0x01] ++ [0x80]))) [0x80] ∧
    TakesValue true 0 (withIn State.reset [0x00]) [0x00] :=
  ⟨takesValue_raw _ _ _ (by decide), takesValue_framed _ _ _ (by decide), takesValue_raw _ _ _ (by decide)⟩
/-- The widest operand, framed, fits to the last byte; the range ends of each width. -/
theorem witness_SintencAppendsNarrowestSigned :
    (tiny 6 ⟨2, 0x8000000000000000⟩ ⟨0, 0⟩).opa.kind = 2 ∧ fitsExactly 10 ⟨2, 0x8000000000000000⟩ ⟨0, 0⟩ = true ∧
    (0xFFFFFFFFFFFFFF80 : DWord).toInt = -128 ∧ (0x7FFF : DWord).toInt = 32767 ∧
    (0xFFFFFFFF80000000 : DWord).toInt = -2147483648 := by decide
theorem witness_SintdecSignExtends :
    TakesValue true 0 (withIn State.reset [0x80]) [0x80] ∧
    TakesValue false 0x85 (withIn State.reset (0x85 :: ([0x82, 0x00, 0x02] ++ [0xFF, 0x7F]))) [0xFF, 0x7F] ∧
    TakesValue true 0 (withIn State.reset [0x80, 0, 0, 0]) [0x80, 0, 0, 0] ∧
    TakesValue true 0 (withIn State.reset [0x80, 0, 0, 0, 0, 0, 0, 0]) [0x80, 0, 0, 0, 0, 0, 0, 0] :=
  ⟨takesValue_raw _ _ _ (by decide), takesValue_framed _ _ _ (by decide), takesValue_raw _ _ _ (by decide),
    takesValue_raw _ _ _ (by decide)⟩
theorem witness_UintencAppendsNarrowestUnsigned :
    (tiny 10 ⟨2, 4294967295⟩ ⟨0, 0⟩).opa.kind = 2 ∧ 0 ≤ (tiny 10 ⟨2, 4294967295⟩ ⟨0, 0⟩).opa.val.toInt ∧
    (tiny 10 ⟨2, 4294967295⟩ ⟨0, 0⟩).opa.val.toInt ≤ 4294967295 ∧ fitsExactly 6 ⟨2, 4294967295⟩ ⟨0, 0⟩ = true := by
  decide
theorem witness_UintdecZeroExtends :
    TakesValue true 0 (withIn State.reset [0xFF]) [0xFF] ∧
    TakesValue false 0x86 (withIn State.reset (0x86 :: ([0x82, 0x00, 0x02] ++ [0x00, 0x05]))) [0x00, 0x05] ∧
    TakesValue true 0 (withIn State.reset [0xFF, 0xFF, 0xFF, 0xFF]) [0xFF, 0xFF, 0xFF, 0xFF] :=
  ⟨takesValue_raw _ _ _ (by decide), takesValue_framed _ _ _ (by decide), takesValue_raw _ _ _ (by decide)⟩
theorem witness_FltencAppendsBitPattern :
    (tiny 9 ⟨3, 0xFFFFFFFF7FC00001⟩ ⟨0, 0⟩).opa.kind = 3 ∧ fitsExactly 7 ⟨3, 0xFFFFFFFF7FC00001⟩ ⟨0, 0⟩ = true ∧
    (tiny 5 ⟨4, 0xFFF0000000000000⟩ ⟨0, 0⟩).opa.kind = 4 ∧ fitsExactly 11 ⟨4, 0xFFF0000000000000⟩ ⟨0, 0⟩ = true := by
  decide
theorem witness_FltdecReadsBitPattern :
    TakesValue false 0x87 (withIn State.reset (0x87 :: ([0x82, 0x00, 0x05] ++ [0x08, 0x7F, 0xC0, 0x00, 0x01])))
      [0x08, 0x7F, 0xC0, 0x00, 0x01] ∧
    TakesValue true 0 (withIn State.reset [0x11, 0x7F, 0xF8, 0, 0, 0, 0, 0, 0x01])
      [State.reset.params.doubleDisc, 0x7F, 0xF8, 0, 0, 0, 0, 0, 0x01] :=
  ⟨takesValue_framed _ _ _ (by decide), takesValue_raw _ _ _ (by decide)⟩
theorem witness_FltdecRefusesOtherValues :
    TakesValue true 0 (withIn State.reset []) [] ∧
    (TakesValue true 0 (withIn State.reset [0x11]) [0x11] ∧ (0x11#8 : Byte) ≠ (if Prec.single = .single then 0x08 else 0x11)) ∧
    (TakesValue true 0 (withIn State.reset [0x08, 0, 0, 0]) [0x08, 0, 0, 0] ∧
      (0x08#8 : Byte) = (if Prec.single = .single then 0x08 else 0x11) ∧
      [0#8, 0#8, 0#8].length ≠ (if Prec.single = .single then 4 else 8)) :=
  ⟨takesValue_raw _ _ _ (by decide), ⟨takesValue_raw _ _ _ (by decide), by decide⟩, takesValue_raw _ _ _ (by decide),
    by decide, by decide⟩
theorem witness_QualencAppendsQualityByte :
    (tiny 13 ⟨0, 0⟩ ⟨5, 0x1F07⟩).opb.kind = 5 ∧ AccuracyOk (payloadByte (tiny 13 ⟨0, 0⟩ ⟨5, 0x1F07⟩).opb.val 1).toNat ∧
    AccuracyOk (payloadByte 0xFFFFFFFFFFFF18F8 1).toNat ∧ fitsExactly 3 ⟨0, 0⟩ ⟨5, 0x1F07⟩ = true :=
  ⟨rfl, .inr (by decide), .inl (by decide), by decide⟩
theorem witness_QualdecReadsQualityByte :
    TakesValue true 0 (withIn State.reset [0xF8]) [0xF8] ∧ AccuracyOk ((0xF8 : Byte).extractLsb' 0 5).toNat ∧
    TakesValue false 0x84 (withIn State.reset (0x84 :: ([0x82, 0x00, 0x01] ++ [0xFF]))) [0xFF] ∧
    AccuracyOk ((0xFF : Byte).extractLsb' 0 5).toNat :=
  ⟨takesValue_raw _ _ _ (by decide), .inl (by decide), takesValue_framed _ _ _ (by decide), .inr (by decide)⟩

/-- -0.0 is the value 0. -/
theorem f64Value_neg_zero : f64Value 0x8000000000000000 = 0 := by
  have h1 : ((0x8000000000000000 : DWord).extractLsb' 52 11).toNat = 0 := by decide
  have h2 : ((0x8000000000000000 : DWord).extractLsb' 0 52).toNat = 0 := by decide
  rw [f64Value, h1, h2]
  simp

/-- The pattern 0x41F0000000000000 is 2^32. -/
theorem f64Value_two_pow_32 : f64Value 0x41F0000000000000 = 2 ^ 32 := by
  rw [f64Value_of_normal (e := 1055) (m := 0) (k := 20) rfl rfl rfl (by decide) rfl]
  norm_num

/-- The pattern 0x41EFFFFFFFFFFFFF is the greatest binary64 below 2^32. -/
theorem f64Value_below_two_pow_32 : f64Value 0x41EFFFFFFFFFFFFF = 2 ^ 32 - 1 / 2 ^ 21 := by
  rw [f64Value_of_normal (e := 1054) (m := 2 ^ 52 - 1) (k := 21) rfl rfl rfl (by decide) rfl]
  norm_num

/-- The pattern 0x41B0000000000000 is 2^28. -/
theorem f64Value_two_pow_28 : f64Value 0x41B0000000000000 = 2 ^ 28 := by
  rw [f64Value_of_normal (e := 1051) (m := 0) (k := 24) rfl rfl rfl (by decide) rfl]
  norm_num

/-- The pattern 0x41AFFFFFFFFFFFFF is the greatest binary64 below 2^28. -/
theorem f64Value_below_two_pow_28 : f64Value 0x41AFFFFFFFFFFFFF = 2 ^ 28 - 1 / 2 ^ 25 := by
  rw [f64Value_of_normal (e := 1050) (m := 2 ^ 52 - 1) (k := 25) rfl rfl rfl (by decide) rfl]
  norm_num

/-- The pattern 0x3E78000000000000 is 3 * 2^-25. -/
theorem f64Value_tie : f64Value 0x3E78000000000000 = 3 / 2 ^ 25 := by
  rw [f64Value_of_normal (e := 999) (m := 2 ^ 51) (k := 76) rfl rfl rfl (by decide) rfl]
  norm_num

theorem witness_TsencAppendsTimestamp :
    (tiny 6 ⟨4, 0x8000000000000000⟩ ⟨5, 0x1F04⟩).opa.kind = 4 ∧ (tiny 6 ⟨4, 0x8000000000000000⟩ ⟨5, 0x1F04⟩).opb.kind = 5 ∧
    F64Finite (0x8000000000000000 : DWord) ∧ 0 ≤ f64Value 0x8000000000000000 ∧ f64Value 0x8000000000000000 < 2 ^ 32 ∧
    AccuracyOk (payloadByte 0x1F04 1).toNat ∧ fitsExactly 10 ⟨4, 0x8000000000000000⟩ ⟨5, 0x1F04⟩ = true := by
  refine ⟨rfl, rfl, by unfold F64Finite; decide, ?_, ?_, .inr (by decide), by decide⟩ <;>
  · norm_num [f64Value_neg_zero]
/-- A tie: 3 * 2^-25 is FRAC 1.5, which rounds to 2 (the corner case of 42_quality_timestamp.md R136). -/
theorem witness_TsencAppendsTimestamp_tie :
    (tiny 6 ⟨4, 0x3E78000000000000⟩ ⟨5, 0x1804⟩).opa.kind = 4 ∧ (tiny 6 ⟨4, 0x3E78000000000000⟩ ⟨5, 0x1804⟩).opb.kind = 5 ∧
    F64Finite (0x3E78000000000000 : DWord) ∧ AccuracyOk (payloadByte 0x1804 1).toNat ∧
    ((0 : ℕ) : ℚ) ≤ f64Value 0x3E78000000000000 ∧ f64Value 0x3E78000000000000 < (0 : ℕ) + 1 ∧
    NearestEven ((f64Value 0x3E78000000000000 - (0 : ℕ)) * 2 ^ 24) 2 := by
  rw [f64Value_tie]
  refine ⟨rfl, rfl, by unfold F64Finite; decide, .inl (by decide), ?_, ?_, ?_, fun _ => by decide⟩ <;> norm_num [abs_le]
/-- A carry: the greatest seconds below 2^28 are a tie too, FRAC 2^24 - 0.5, which rounds to the even 2^24. -/
theorem witness_TsencAppendsTimestamp_carry :
    (tiny 6 ⟨4, 0x41AFFFFFFFFFFFFF⟩ ⟨5, 0x1804⟩).opa.kind = 4 ∧ (tiny 6 ⟨4, 0x41AFFFFFFFFFFFFF⟩ ⟨5, 0x1804⟩).opb.kind = 5 ∧
    F64Finite (0x41AFFFFFFFFFFFFF : DWord) ∧ AccuracyOk (payloadByte 0x1804 1).toNat ∧
    ((2 ^ 28 - 1 : ℕ) : ℚ) ≤ f64Value 0x41AFFFFFFFFFFFFF ∧ f64Value 0x41AFFFFFFFFFFFFF < (2 ^ 28 - 1 : ℕ) + 1 ∧
    NearestEven ((f64Value 0x41AFFFFFFFFFFFFF - (2 ^ 28 - 1 : ℕ)) * 2 ^ 24) (2 ^ 24) := by
  rw [f64Value_below_two_pow_28]
  refine ⟨rfl, rfl, by unfold F64Finite; decide, .inl (by decide), ?_, ?_, ?_, fun _ => by decide⟩ <;> norm_num [abs_le]
theorem witness_TsencRefusesOtherOperands :
    (tiny 0 ⟨3, 0⟩ ⟨5, 0⟩).opa.kind ≠ 4 ∧ (tiny 0 ⟨4, 0⟩ ⟨2, 4⟩).opb.kind ≠ 5 ∧
    ((tiny 0 ⟨4, 0x7FF0000000000000⟩ ⟨5, 0x1900⟩).opa.kind = 4 ∧ (tiny 0 ⟨4, 0x7FF0000000000000⟩ ⟨5, 0x1900⟩).opb.kind = 5 ∧
      ¬ F64Finite (0x7FF0000000000000 : DWord)) ∧
    (2 : ℚ) ^ 32 ≤ f64Value 0x41F0000000000000 ∧
    ((tiny 0 ⟨4, 0x8000000000000000⟩ ⟨5, 0x1900⟩).opa.kind = 4 ∧ (tiny 0 ⟨4, 0x8000000000000000⟩ ⟨5, 0x1900⟩).opb.kind = 5 ∧
      F64Finite (0x8000000000000000 : DWord) ∧ 0 ≤ f64Value 0x8000000000000000 ∧
      f64Value 0x8000000000000000 < 2 ^ 32 ∧ ¬ AccuracyOk (payloadByte 0x1900 1).toNat) := by
  refine ⟨by decide, by decide, ⟨rfl, rfl, by unfold F64Finite; decide⟩, ?_, rfl, rfl, by unfold F64Finite; decide,
    ?_, ?_, by unfold AccuracyOk; decide⟩
  · rw [f64Value_two_pow_32]
  · rw [f64Value_neg_zero]
  · norm_num [f64Value_neg_zero]
theorem witness_TsdecReadsNearestSeconds :
    TakesValue true 0 (withIn State.reset [0xFF, 0xFF, 0xFF, 0xFF, 0xFF, 0xFF, 0xFF, 0x1F])
      [0xFF, 0xFF, 0xFF, 0xFF, 0xFF, 0xFF, 0xFF, 0x1F] ∧
    AccuracyOk ((0x1F : Byte).extractLsb' 0 5).toNat := ⟨takesValue_raw _ _ _ (by decide), .inr (by decide)⟩
theorem witness_TsdecExactBelowTwoPow29 :
    TakesValue false 0x84 (withIn State.reset
      (0x84 :: ([0x82, 0x00, 0x08] ++ [0x1F, 0xFF, 0xFF, 0xFF, 0xFF, 0xFF, 0xFF, 0x18])))
      [0x1F, 0xFF, 0xFF, 0xFF, 0xFF, 0xFF, 0xFF, 0x18] ∧
    AccuracyOk ((0x18 : Byte).extractLsb' 0 5).toNat ∧
    ((0x1F : Byte) ++ (0xFF : Byte) ++ (0xFF : Byte) ++ (0xFF : Byte)).toNat < 2 ^ 29 :=
  ⟨takesValue_framed _ _ _ (by decide), .inl (by decide), by decide⟩
theorem witness_ClroutEmptiesOutput :
    (0xFFFFFF30 : Word).extractLsb' 0 8 = 0x30#8 ∧ (0xFFFFFF30 : Word) ≠ 0x30 := by decide
/-- A reserved kind meets every clause of WrongKindIsTypeMismatch. -/
theorem witness_WrongKindIsTypeMismatch :
    (∀ k ∈ [0#4, 1#4, 2#4, 3#4, 4#4], (tiny 0 ⟨15, 0⟩ ⟨6, 0⟩).opa.kind ≠ k) ∧ (tiny 0 ⟨15, 0⟩ ⟨6, 0⟩).opb.kind ≠ 5 := by
  decide
theorem witness_OutOfRangeOperandIsRangeError :
    (tiny 0 ⟨2, 0xFFFFFFFFFFFFFFFF⟩ ⟨5, 0x2000⟩).opa.kind = 2 ∧
    (tiny 0 ⟨2, 0xFFFFFFFFFFFFFFFF⟩ ⟨5, 0x2000⟩).opa.val.toInt < 0 ∧
    (tiny 0 ⟨2, 0x100000000⟩ ⟨5, 0x1900⟩).opa.kind = 2 ∧ 4294967295 < (tiny 0 ⟨2, 0x100000000⟩ ⟨5, 0x1900⟩).opa.val.toInt ∧
    (tiny 0 ⟨2, 0x100000000⟩ ⟨5, 0x1900⟩).opb.kind = 5 ∧
    ¬ AccuracyOk (payloadByte (tiny 0 ⟨2, 0x100000000⟩ ⟨5, 0x1900⟩).opb.val 1).toNat ∧
    ¬ AccuracyOk (payloadByte (tiny 0 ⟨2, 0xFFFFFFFFFFFFFFFF⟩ ⟨5, 0x2000⟩).opb.val 1).toNat := by
  unfold AccuracyOk
  decide
/-- Values for each clause: two bytes, three bytes, eight bytes for UINTDEC, none, seven bytes, a Quality of accuracy 25
and a Timestamp whose Quality has accuracy 30. -/
theorem witness_UnacceptedValueIsDecodeError :
    TakesValue true 0 (withIn State.reset [0, 0]) [0, 0] ∧ 2 ≤ [0#8, 0#8].length ∧
    TakesValue true 0 (withIn State.reset [0, 0, 0]) [0, 0, 0] ∧ [0#8, 0#8, 0#8].length ∉ [1, 2, 4, 8] ∧
    TakesValue true 0 (withIn State.reset (List.replicate 8 0)) (List.replicate 8 0) ∧
    (List.replicate 8 0#8).length ∉ [1, 2, 4] ∧
    TakesValue true 0 (withIn State.reset []) [] ∧ ([] : List Byte).length ≠ 1 ∧
    TakesValue true 0 (withIn State.reset (List.replicate 7 0)) (List.replicate 7 0) ∧
    TakesValue true 0 (withIn State.reset [0x19]) [0x19] ∧ ¬ AccuracyOk ((0x19 : Byte).extractLsb' 0 5).toNat ∧
    TakesValue true 0 (withIn State.reset (List.replicate 7 0 ++ [0x1E])) (List.replicate 7 0 ++ [0x1E]) ∧
    ¬ AccuracyOk ((0x1E : Byte).extractLsb' 0 5).toNat :=
  ⟨takesValue_raw _ _ _ (by decide), by decide, takesValue_raw _ _ _ (by decide), by decide,
    takesValue_raw _ _ _ (by decide), by decide, takesValue_raw _ _ _ (by decide), by decide,
    takesValue_raw _ _ _ (by decide), takesValue_raw _ _ _ (by decide), by unfold AccuracyOk; decide,
    takesValue_raw _ _ _ (by decide), by unfold AccuracyOk; decide⟩
/-- One state for each kind of operand CodecRoundTrip speaks of. -/
theorem witness_CodecRoundTrip :
    (tiny 0 ⟨2, 4294967295⟩ ⟨0, 0⟩).params.ok = true ∧ (tiny 0 ⟨2, 4294967295⟩ ⟨0, 0⟩).outLen = 0 ∧
    (tiny 0 ⟨2, 4294967295⟩ ⟨0, 0⟩).opa.kind = 2 ∧ 0 ≤ (tiny 0 ⟨2, 4294967295⟩ ⟨0, 0⟩).opa.val.toInt ∧
    (tiny 0 ⟨2, 4294967295⟩ ⟨0, 0⟩).opa.val.toInt ≤ 4294967295 ∧
    (tiny 0 ⟨3, 0xFFFFFFFF⟩ ⟨0, 0⟩).opa.kind = 3 ∧ (tiny 0 ⟨3, 0xFFFFFFFF⟩ ⟨0, 0⟩).opa.val.extractLsb' 32 32 = 0#32 ∧
    (tiny 0 ⟨4, 0xFFFFFFFFFFFFFFFF⟩ ⟨0, 0⟩).opa.kind = 4 ∧ (tiny 0 ⟨1, 2⟩ ⟨0, 0⟩).opa.kind = 1 ∧
    (tiny 0 ⟨0, 5⟩ ⟨0, 0⟩).opa.kind = 0 := by decide
/-- -0.0, the greatest seconds below 2^28 (which carry), 2^28, and the greatest seconds below 2^32. -/
theorem witness_TimestampRoundTripWithinHalfStep :
    ∀ v ∈ ([0x8000000000000000, 0x41AFFFFFFFFFFFFF, 0x41B0000000000000, 0x41EFFFFFFFFFFFFF] : List DWord),
      (tiny 0 ⟨4, v⟩ ⟨5, 0x1804⟩).params.ok = true ∧ (tiny 0 ⟨4, v⟩ ⟨5, 0x1804⟩).outLen = 0 ∧
      (tiny 0 ⟨4, v⟩ ⟨5, 0x1804⟩).opa.kind = 4 ∧ (tiny 0 ⟨4, v⟩ ⟨5, 0x1804⟩).opb.kind = 5 ∧
      F64Finite v ∧ 0 ≤ f64Value v ∧ f64Value v < 2 ^ 32 ∧ AccuracyOk (payloadByte 0x1804 1).toNat := by
  simp only [List.forall_mem_cons, List.not_mem_nil, false_imp_iff, implies_true, and_true]
  refine ⟨?_, ?_, ?_, ?_⟩ <;>
  · refine ⟨rfl, rfl, rfl, rfl, by unfold F64Finite; decide, ?_, ?_, .inl (by decide)⟩ <;>
    norm_num [f64Value_neg_zero, f64Value_below_two_pow_28, f64Value_two_pow_28, f64Value_below_two_pow_32]
/-- The premise of its exact clause holds from 2^28 on. -/
theorem witness_TimestampRoundTripWithinHalfStep_exact :
    (2 : ℚ) ^ 28 ≤ f64Value 0x41B0000000000000 ∧ (2 : ℚ) ^ 28 ≤ f64Value 0x41EFFFFFFFFFFFFF := by
  norm_num [f64Value_two_pow_28, f64Value_below_two_pow_32]

end Sys2Proof.Tests
end

section
/-! PROOFS. What a command can do, said once: the errors it can raise and the states it can complete to. -/

namespace Sys2Proof.Machine

open Sys2Proof.Safety

/-! The outcomes of a computation that can raise. -/

/-- `x` raises only errors whose codes are in `codes`, and otherwise gives a value that satisfies `P`. -/
def Answers {α : Type} (codes : List Byte) (P : α → Prop) : Except ErrorCode α → Prop
  | .ok a => P a
  | .error e => e.code ∈ codes

section
variable {α β : Type} {codes codes' : List Byte} {P Q : α → Prop}

@[simp] theorem answers_ok {a : α} : Answers codes P (.ok a) ↔ P a := Iff.rfl

@[simp] theorem answers_pure {a : α} : Answers codes P (pure a) ↔ P a := Iff.rfl

@[simp] theorem answers_error {e : ErrorCode} : Answers codes P (.error e) ↔ e.code ∈ codes := Iff.rfl

theorem answers_mono {x : Except ErrorCode α} (h : Answers codes P x) (hc : codes ⊆ codes')
    (hP : ∀ a, P a → Q a) : Answers codes' Q x := by
  cases x with
  | ok a => exact hP a h
  | error e => exact hc h

/-- The sequence rule: what the first step gives is what the second step starts from. -/
theorem answers_bind {R : β → Prop} {x : Except ErrorCode α} {f : α → Except ErrorCode β}
    (hx : Answers codes P x) (hc : codes ⊆ codes') (hf : ∀ a, P a → Answers codes' R (f a)) :
    Answers codes' R (x >>= f) := by
  cases x with
  | ok a => exact hf a hx
  | error e => exact hc hx

/-- A computation all of whose errors have their codes in `codes`, when nothing is asked of its value. -/
theorem answers_of_errors {x : Except ErrorCode α} (h : ∀ e, x = .error e → e.code ∈ codes) :
    Answers codes (fun _ => True) x := by
  cases x with
  | ok a => trivial
  | error e => exact h e rfl

end

/-! The operands a command reads. -/

theorem readInt_raises (o : Operand) : Answers [0x10] (fun _ => True) o.readInt := by
  rcases readInt_cases o with ⟨_, h⟩ | ⟨_, h⟩ <;> simp [h, ErrorCode.code]

theorem readFloat32_raises (o : Operand) : Answers [0x10] (fun _ => True) o.readFloat32 := by
  rcases readFloat32_cases o with ⟨_, h⟩ | ⟨_, h⟩ <;> simp [h, ErrorCode.code]

theorem readFloat64_raises (o : Operand) : Answers [0x10] (fun _ => True) o.readFloat64 := by
  rcases readFloat64_cases o with ⟨_, h⟩ | ⟨_, h⟩ <;> simp [h, ErrorCode.code]

theorem readQuality_raises (o : Operand) : Answers [0x10] (fun _ => True) o.readQuality := by
  rcases readQuality_cases o with ⟨_, h⟩ | ⟨_, h⟩ <;> simp [h, ErrorCode.code]

/-! The value portions the encoders make: at most 9 bytes (the FloatingPoint of 64 bits), so that each can be framed. -/

/-- A value portion of a scalar, Quality or Timestamp. -/
def ShortValue (v : List Byte) : Prop := v.length ≤ 9

theorem boolval_raises (o : Operand) : Answers [0x10] ShortValue (boolval o) := by
  unfold boolval
  split_ifs <;> simp [ShortValue, ErrorCode.code]

theorem swidth_le (n : Int) : swidth n ≤ 8 := by
  unfold swidth
  split_ifs <;> decide

theorem sintval_raises (o : Operand) : Answers [0x10] ShortValue (sintval o) := by
  refine answers_bind (readInt_raises o) (List.Subset.refl _) fun n _ => ?_
  have := swidth_le n
  simp only [answers_pure, ShortValue, be_length]
  omega

theorem uintval_raises (o : Operand) : Answers [0x10, 0x20, 0x21] ShortValue (uintval o) := by
  refine answers_bind (readInt_raises o) (by decide) fun n _ => ?_
  split_ifs <;> simp [ShortValue, ErrorCode.code]

theorem fltval_raises (p : Config.Params) (prec : Prec) (o : Operand) :
    Answers [0x10] ShortValue (fltval p prec o) := by
  cases prec with
  | single => exact answers_bind (readFloat32_raises o) (List.Subset.refl _) fun _ _ => by simp [ShortValue]
  | double => exact answers_bind (readFloat64_raises o) (List.Subset.refl _) fun _ _ => by simp [ShortValue]

theorem qualval_raises (o : Operand) : Answers [0x10, 0x23] (fun v => v.length = 1) (qualval o) := by
  refine answers_bind (readQuality_raises o) (by decide) fun v _ => ?_
  split_ifs <;> simp [ErrorCode.code]

theorem tsval_raises (a q : Operand) : Answers [0x10, 0x23, 0x25] ShortValue (tsval a q) := by
  unfold tsval
  refine answers_bind (readFloat64_raises a) (by decide) fun bits _ => ?_
  refine answers_bind (readQuality_raises q) (by decide) fun _ _ => ?_
  generalize timestampFields bits = fields
  obtain ⟨sec, r⟩ := fields
  split_ifs
  · simp [ErrorCode.code]
  · dsimp only
    split_ifs
    · simp [ErrorCode.code]
    · exact answers_bind (qualval_raises q) (by decide) fun qb hqb => by simp [ShortValue, hqb]

/-! The operands the decoders read from a value portion. -/

theorem boolof_raises (v : List Byte) : Answers [0x36] (fun _ => True) (boolof v) := by
  unfold boolof
  split <;> simp [ErrorCode.code]

theorem sintof_raises (v : List Byte) : Answers [0x36] (fun _ => True) (sintof v) := by
  unfold sintof
  split_ifs <;> simp [ErrorCode.code]

theorem uintof_raises (v : List Byte) : Answers [0x36] (fun _ => True) (uintof v) := by
  unfold uintof
  split_ifs <;> simp [ErrorCode.code]

theorem fltof_raises (p : Config.Params) (prec : Prec) (v : List Byte) :
    Answers [0x35, 0x36] (fun _ => True) (fltof p prec v) := by
  unfold fltof
  cases v with
  | nil => simp [ErrorCode.code]
  | cons d bytes => cases prec <;> dsimp only <;> split_ifs <;> simp [ErrorCode.code]

theorem qualof_raises (b : Byte) : Answers [0x26] (fun _ => True) (qualof b) := by
  unfold qualof
  dsimp only
  split_ifs <;> simp [ErrorCode.code]

theorem qualdecValue_raises (v : List Byte) : Answers [0x26, 0x36] (fun _ => True) (qualdecValue v) := by
  unfold qualdecValue
  split
  · exact answers_mono (qualof_raises _) (by decide) fun _ h => h
  · simp [ErrorCode.code]

theorem tsof_raises (v : List Byte) : Answers [0x26, 0x36] (fun _ => True) (tsof v) := by
  unfold tsof
  split
  · exact answers_bind (qualof_raises _) (by decide) fun _ _ => trivial
  · simp [ErrorCode.code]

/-! The engine. -/

theorem berlen_raises (l : Int) : Answers [0x24] (fun _ => True) (berlen l) :=
  answers_of_errors fun e h => by simp [berlen_error h, ErrorCode.code]

/-- A value that a buffer can hold frames without error, and the frame is longer than the value. -/
theorem frame_longer (tag : Byte) {v : List Byte} (hv : v.length ≤ 2 ^ 32 - 1) :
    Answers [] (fun t => v.length < t.length) (frame tag v) := by
  obtain ⟨t, ht⟩ := frame_answers tag hv
  obtain ⟨l, -, rfl⟩ := frame_ok ht
  simp only [ht, answers_ok, List.length_cons, List.length_append]
  omega

theorem parselen_raises (s : List Byte) (p : Nat) : Answers [0x31, 0x32] (fun _ => True) (parselen s p) :=
  answers_of_errors fun e h => by rcases parselen_error h with rfl | rfl <;> decide

/-- `unframe` raises framing errors only, and the value is shorter than the TLV. -/
theorem unframe_raises (s : List Byte) (tag : Byte) :
    Answers framingCodes (fun v => v.length < s.length) (unframe s tag) := by
  cases h : unframe s tag with
  | ok v => exact unframe_shorter h
  | error e =>
    have he := unframe_error h
    simp only [List.mem_cons, List.not_mem_nil, or_false] at he
    rcases he with rfl | rfl | rfl | rfl | rfl <;> simp [framingCodes, ErrorCode.code]

/-- Taking the value portion raises framing errors, and none if RAW. -/
theorem takeValue_raises (s : State) (raw : Bool) (tag : Byte) :
    Answers (if raw then [] else framingCodes) (fun _ => True) (s.takeValue raw tag) := by
  cases raw with
  | true => trivial
  | false => exact answers_mono (unframe_raises s.inBytes tag) (List.Subset.refl _) fun _ _ => trivial

/-- Appending raises CAPACITY only. -/
theorem append_raises (s : State) (bs : List Byte) :
    Answers [0x51] (fun s' => s.append bs = .ok s') (s.append bs) := by
  cases h : s.append bs with
  | ok s' => rfl
  | error e => simp [(append_error h).1, ErrorCode.code]

/-- Emitting a short value portion raises CAPACITY only, and otherwise appends. -/
theorem emitValue_raises (s : State) (raw : Bool) (tag : Byte) {v : List Byte} (hv : ShortValue v) :
    Answers [0x51] (fun s' => ∃ bs, s.append bs = .ok s') (s.emitValue raw tag v) := by
  have hlen : v.length ≤ 2 ^ 32 - 1 := le_trans hv (by decide)
  cases h : s.emitValue raw tag v with
  | ok s' =>
    obtain ⟨bs, -, hbs⟩ := emitValue_ok h
    exact ⟨bs, hbs⟩
  | error e => simp [emitValue_error hlen h, ErrorCode.code]

/-! The commands by what they write. -/

/-- The commands that append to OUT and write nothing else (LENENC, TLVENC, the encoders). -/
def appendsToOut : Instr → Bool
  | .lenenc | .tlvenc _ | .boolenc _ _ | .sintenc _ _ | .uintenc _ _ | .fltenc _ _ _ | .qualenc _ _ | .tsenc _ _ => true
  | _ => false

/-- The commands that write operand registers and nothing else (LENDEC, the decoders). -/
def writesOperands : Instr → Bool
  | .lendec | .booldec _ _ | .sintdec _ _ | .uintdec _ _ | .fltdec _ _ _ | .qualdec _ _ | .tsdec _ _ => true
  | _ => false

/-- `Effect s i s'`: command `i`, if it completes from `s`, can leave its results as in `s'`, before CODE and LASTOP are
written (60_exceptions.md R162). -/
inductive Effect (s : State) : Instr → State → Prop
  | appended {i : Instr} {bs : List Byte} {s' : State} (hi : appendsToOut i = true) (h : s.append bs = .ok s') :
      Effect s i s'
  | operands {i : Instr} (a b : Operand) (hi : writesOperands i = true) : Effect s i ((s.setOpa a).setOpb b)
  | replaced (tag : Byte) {v : List Byte} (o : Operand) (h : v.length < s.inLen.toNat) :
      Effect s (.tlvdec tag) ((s.replaceOut v).setOpa o)
  | wrapped (tag : Byte) {bs : List Byte} (hlong : s.outLen.toNat < bs.length) (hfit : bs.length ≤ s.cap) :
      Effect s (.wrap tag) { s with output := s.output.write 0 bs, outLen := BitVec.ofNat 32 bs.length }
  | emptied : Effect s .clrout s.emptyOut
  | cleared : Effect s .clrst { s with status := s.status.clearSticky }
  | moved : Effect s .movoi { s.emptyOut with input := s.input.write 0 s.outBytes, inLen := s.outLen }

/-- The shape of every value encoder: make the value portion, then emit it. -/
theorem valueEncoder_answers {i : Instr} {codes : List Byte} {x : Except ErrorCode (List Byte)} (s : State) (raw : Bool)
    (tag : Byte) (hx : Answers codes ShortValue x) (hi : appendsToOut i = true)
    (hc : codes ++ [0x51] = mayRaise i) :
    Answers (mayRaise i) (Effect s i) (x >>= fun v => s.emitValue raw tag v) := by
  rw [← hc]
  exact answers_bind hx (List.subset_append_left _ _) fun v hv =>
    answers_mono (emitValue_raises s raw tag hv) (List.subset_append_right _ _) fun _ ⟨_, h⟩ => .appended hi h

/-- The shape of every value decoder: take the value portion, read it, write the operands `w` makes of what was read. -/
theorem valueDecoder_answers {i : Instr} {codes : List Byte} {α : Type} {f : List Byte → Except ErrorCode α}
    {w : α → State} (s : State) (raw : Bool) (tag : Byte) (hf : ∀ v, Answers codes (fun _ => True) (f v))
    (hw : ∀ r, Effect s i (w r)) (hc : (if raw then [] else framingCodes) ++ codes = mayRaise i) :
    Answers (mayRaise i) (Effect s i) (s.takeValue raw tag >>= fun v => f v >>= fun r => pure (w r)) := by
  rw [← hc]
  refine answers_bind (takeValue_raises s raw tag) (List.subset_append_left _ _) fun v _ => ?_
  exact answers_bind (hf v) (List.subset_append_right _ _) fun r _ => hw r

/-- Writing OPA alone is one of the operand writes. -/
theorem effect_setOpa {s : State} {i : Instr} (hi : writesOperands i = true) (a : Operand) :
    Effect s i (s.setOpa a) := .operands a s.opb hi

/-- Writing OPB alone is one of the operand writes. -/
theorem effect_setOpb {s : State} {i : Instr} (hi : writesOperands i = true) (b : Operand) :
    Effect s i (s.setOpb b) := .operands s.opa b hi

theorem inBytes_frameable (s : State) : s.inBytes.length ≤ 2 ^ 32 - 1 := by
  rw [inBytes_length]
  have := s.inLen.isLt
  omega

theorem outBytes_frameable (s : State) : s.outBytes.length ≤ 2 ^ 32 - 1 := by
  rw [outBytes_length]
  have := s.outLen.isLt
  omega

/-- EVERY COMMAND IS A COMMIT (60_exceptions.md R162) of a computation that raises only what R161 lists for the command
and otherwise leaves one of the command's effects. -/
theorem exec_commits (i : Instr) (s : State) :
    ∃ r, exec i s = s.commit i.opcode r ∧ Answers (mayRaise i) (Effect s i) r := by
  cases i with
  | lenenc =>
    refine ⟨_, rfl, answers_bind (readInt_raises s.opa) (by decide) fun l _ => ?_⟩
    refine answers_bind (berlen_raises l) (by decide) fun bs _ => ?_
    exact answers_mono (append_raises s bs) (by decide) fun _ h => .appended rfl h
  | lendec =>
    refine ⟨_, rfl, answers_bind (parselen_raises s.inBytes 0) (by decide) fun ⟨l, q⟩ _ => ?_⟩
    dsimp only
    split_ifs
    · simp [ErrorCode.code, mayRaise]
    · exact effect_setOpa rfl _
  | tlvenc tag =>
    refine ⟨_, rfl, answers_bind (frame_longer tag (inBytes_frameable s)) (List.nil_subset _) fun bs _ => ?_⟩
    exact answers_mono (append_raises s bs) (List.Subset.refl _) fun _ h => .appended rfl h
  | tlvdec tag =>
    refine ⟨_, rfl, answers_bind (unframe_raises s.inBytes tag) (List.Subset.refl _) fun v hv => ?_⟩
    exact .replaced tag _ (by simpa using hv)
  | wrap tag =>
    refine ⟨_, rfl, answers_bind (frame_longer tag (outBytes_frameable s)) (List.nil_subset _) fun bs hbs => ?_⟩
    split_ifs with hcap
    · simp [ErrorCode.code, mayRaise]
    · exact .wrapped tag (by simpa using hbs) (Nat.not_lt.1 hcap)
  | boolenc raw tag => exact ⟨_, rfl, valueEncoder_answers s raw tag (boolval_raises _) rfl rfl⟩
  | sintenc raw tag => exact ⟨_, rfl, valueEncoder_answers s raw tag (sintval_raises _) rfl rfl⟩
  | uintenc raw tag => exact ⟨_, rfl, valueEncoder_answers s raw tag (uintval_raises _) rfl rfl⟩
  | fltenc prec raw tag => exact ⟨_, rfl, valueEncoder_answers s raw tag (fltval_raises _ prec _) rfl rfl⟩
  | qualenc raw tag =>
    exact ⟨_, rfl, valueEncoder_answers s raw tag
      (answers_mono (qualval_raises _) (List.Subset.refl _) fun v hv => by simp [ShortValue, hv]) rfl rfl⟩
  | tsenc raw tag => exact ⟨_, rfl, valueEncoder_answers s raw tag (tsval_raises _ _) rfl rfl⟩
  | booldec raw tag => exact ⟨_, rfl, valueDecoder_answers s raw tag boolof_raises (effect_setOpa rfl) rfl⟩
  | sintdec raw tag => exact ⟨_, rfl, valueDecoder_answers s raw tag sintof_raises (effect_setOpa rfl) rfl⟩
  | uintdec raw tag => exact ⟨_, rfl, valueDecoder_answers s raw tag uintof_raises (effect_setOpa rfl) rfl⟩
  | fltdec prec raw tag =>
    exact ⟨_, rfl, valueDecoder_answers s raw tag (fltof_raises s.params prec) (effect_setOpa rfl) rfl⟩
  | qualdec raw tag => exact ⟨_, rfl, valueDecoder_answers s raw tag qualdecValue_raises (effect_setOpb rfl) rfl⟩
  | tsdec raw tag =>
    exact ⟨_, rfl, valueDecoder_answers (w := fun r => (s.setOpa r.1).setOpb r.2) s raw tag tsof_raises
      (fun r => .operands r.1 r.2 rfl) rfl⟩
  | clrout => exact ⟨.ok _, rfl, Effect.emptied⟩
  | clrst => exact ⟨.ok _, rfl, Effect.cleared⟩
  | movoi => exact ⟨.ok _, rfl, Effect.moved⟩

/-- Every command answers a next state. -/
theorem exec_answers (i : Instr) (s : State) : ∃ t, exec i s = .next t := by
  obtain ⟨r, hr, -⟩ := exec_commits i s
  rw [hr]
  exact commit_answers s _ r

/-- WHAT A COMMAND CAN DO: it completes with one of its effects, or it writes STATUS alone with a code of R161's. -/
theorem exec_cases {i : Instr} {s t : State} (h : exec i s = .next t) :
    (∃ s', Effect s i s' ∧ t = s'.complete i.opcode) ∨
    (∃ e : ErrorCode, e.code ∈ mayRaise i ∧ t = s.raiseError i.opcode e) := by
  obtain ⟨r, hr, ha⟩ := exec_commits i s
  rcases commit_next (hr ▸ h) with ⟨s', rfl, ht⟩ | ⟨e, rfl, ht⟩
  · exact .inl ⟨s', ha, ht⟩
  · exact .inr ⟨e, ha, ht⟩

/-! What an effect leaves alone. -/

/-- No command's results touch the parameters (10_state.md R18). -/
theorem effect_params {s s' : State} {i : Instr} (h : Effect s i s') : s'.params = s.params := by
  cases h with
  | appended hi h => obtain ⟨-, rfl⟩ := append_ok h; rfl
  | _ => rfl

/-- Only CLRST's results touch STATUS, and they clear STICKY (43_buffer_control.md R151). -/
theorem effect_status {s s' : State} {i : Instr} (h : Effect s i s') :
    s'.status = if i = .clrst then s.status.clearSticky else s.status := by
  cases h with
  | appended hi h =>
    obtain ⟨-, rfl⟩ := append_ok h
    rw [if_neg (by rintro rfl; cases hi)]
  | operands a b hi => exact (if_neg (by rintro rfl; cases hi)).symm
  | replaced tag o h => exact (if_neg (by simp)).symm
  | wrapped tag hlong hfit => exact (if_neg (by simp)).symm
  | emptied => rfl
  | cleared => rfl
  | moved => rfl

end Sys2Proof.Machine
end

section
/-! PROOFS. The decoder: the fields of a word that decodes are those of the command it decodes to. -/

namespace Sys2Proof

/-! The four forms of a command word (30_encoding.md R66). -/

theorem decodePlain_ok {tag mod : Byte} {i j : Instr} (h : decodePlain tag mod i = .ok j) :
    tag = 0 ∧ mod = 0 ∧ i = j := by
  unfold decodePlain at h
  split_ifs at h with htag hmod
  exact ⟨not_not.1 htag, not_not.1 hmod, Except.ok.inj h⟩

theorem decodeFraming_ok {tag mod : Byte} {mk : Byte → Instr} {j : Instr} (h : decodeFraming tag mod mk = .ok j) :
    mod = 0 ∧ mk tag = j := by
  unfold decodeFraming at h
  split_ifs at h with hmod
  exact ⟨not_not.1 hmod, Except.ok.inj h⟩

theorem decodeCodec_ok {tag mod : Byte} {mk : Bool → Byte → Instr} {j : Instr}
    (h : decodeCodec tag mod mk = .ok j) : mod.extractLsb' 1 7 = 0 ∧ mk mod[0] tag = j := by
  unfold decodeCodec at h
  split_ifs at h with hmod
  exact ⟨not_not.1 hmod, Except.ok.inj h⟩

theorem decodeFloat_ok {tag mod : Byte} {mk : Prec → Bool → Byte → Instr} {j : Instr}
    (h : decodeFloat tag mod mk = .ok j) :
    mod.extractLsb' 2 6 = 0 ∧ mk (if mod[1] then .double else .single) mod[0] tag = j := by
  unfold decodeFloat at h
  split at h
  · cases h
  · split at h
    · cases h
    · exact ⟨not_not.1 ‹_›, Except.ok.inj h⟩

/-- MOD of the two bits that commands use (30_encoding.md R63); `Instr.modByte` is `modBits` of a command's own. -/
def modBits (prec raw : Bool) : Byte := (0 : BitVec 6) ++ BitVec.ofBool prec ++ BitVec.ofBool raw

theorem modByte_eq_modBits (i : Instr) : i.modByte = modBits i.precBit i.rawBit := rfl

/-- The field values of `i` are these (30_encoding.md R61 to R63). -/
def HasFields (i : Instr) (op tag mod : Byte) : Prop := i.opcode = op ∧ i.tagByte = tag ∧ i.modByte = mod

/-- MOD whose bits above RAW are 0 is RAW alone. -/
theorem mod_of_raw {m : Byte} (h : m.extractLsb' 1 7 = 0) :
    modBits false m[0] = m := by
  revert m
  decide

/-- MOD whose bits above PREC are 0 is RAW and PREC. -/
theorem mod_of_raw_prec {m : Byte} (h : m.extractLsb' 2 6 = 0) :
    modBits m[1] m[0] = m := by
  revert m
  decide

theorem hasFields_of_plain {op tag mod : Byte} {i j : Instr} (h : decodePlain tag mod i = .ok j)
    (hi : HasFields i op 0 0) : HasFields j op tag mod := by
  obtain ⟨rfl, rfl, rfl⟩ := decodePlain_ok h
  exact hi

theorem hasFields_of_framing {op tag mod : Byte} {mk : Byte → Instr} {j : Instr}
    (h : decodeFraming tag mod mk = .ok j) (hi : HasFields (mk tag) op tag (modBits false false)) :
    HasFields j op tag mod := by
  obtain ⟨rfl, rfl⟩ := decodeFraming_ok h
  exact hi

theorem hasFields_of_codec {op tag mod : Byte} {mk : Bool → Byte → Instr} {j : Instr}
    (h : decodeCodec tag mod mk = .ok j)
    (hi : ∀ raw, HasFields (mk raw tag) op tag (modBits false raw)) :
    HasFields j op tag mod := by
  obtain ⟨hmod, rfl⟩ := decodeCodec_ok h
  have := hi mod[0]
  rwa [mod_of_raw hmod] at this

theorem hasFields_of_float {op tag mod : Byte} {mk : Prec → Bool → Byte → Instr} {j : Instr}
    (h : decodeFloat tag mod mk = .ok j)
    (hi : ∀ prec raw, HasFields (mk prec raw tag) op tag (modBits prec.bit raw)) : HasFields j op tag mod := by
  obtain ⟨hmod, rfl⟩ := decodeFloat_ok h
  have := hi (if mod[1] then .double else .single) mod[0]
  have hbit : (if mod[1] then Prec.double else Prec.single).bit = mod[1] := by cases mod[1] <;> rfl
  rwa [hbit, mod_of_raw_prec hmod] at this

/-- The opcode map gives a command with the fields it was looked up by, one row after the other (30_encoding.md R65). -/
theorem decodeFields_ok {op tag mod : Byte} {i : Instr} (h : decodeFields op tag mod = .ok i) :
    HasFields i op tag mod := by
  unfold decodeFields at h
  split at h
  case h_21 => cases h
  case h_1 | h_2 | h_18 | h_19 | h_20 => exact hasFields_of_plain h ⟨rfl, rfl, rfl⟩
  case h_3 | h_4 | h_5 => exact hasFields_of_framing h ⟨rfl, rfl, rfl⟩
  case h_12 | h_13 => exact hasFields_of_float h fun _ _ => ⟨rfl, rfl, rfl⟩
  all_goals exact hasFields_of_codec h fun _ => ⟨rfl, rfl, rfl⟩

/-- A word that decodes has RSV 0 and the fields of its command. -/
theorem decode_ok {w : Word} {i : Instr} (h : decode w = .ok i) :
    rsvField w = 0 ∧ HasFields i (opField w) (tagField w) (modField w) := by
  unfold decode at h
  split_ifs at h with hrsv
  exact ⟨not_not.1 hrsv, decodeFields_ok h⟩

/-- A word is its four fields, RSV on top (30_encoding.md R60). -/
theorem word_of_fields (w : Word) : rsvField w ++ modField w ++ tagField w ++ opField w = w := by
  simp only [rsvField, modField, tagField, opField]
  ext k hk
  grind

/-- A word that decodes is the word of its command (30_encoding.md R69). -/
theorem encode_of_decode {w : Word} {i : Instr} (h : decode w = .ok i) : encode i = w := by
  obtain ⟨hrsv, hop, htag, hmod⟩ := decode_ok h
  rw [encode, hop, htag, hmod]
  exact (congrArg (· ++ modField w ++ tagField w ++ opField w) hrsv.symm).trans (word_of_fields w)

/-- Only 0x31 decodes to CLRST. -/
theorem decode_eq_clrst_iff (w : Word) : decode w = .ok .clrst ↔ w = 0x31 :=
  ⟨fun h => (encode_of_decode h).symm.trans (by decide), by rintro rfl; decide⟩

end Sys2Proof
end

section
/-! PROOFS. OPB serves the Quality and Timestamp commands alone (10_state.md R12): every other command commutes with
writing OPB. -/

namespace Sys2Proof.Machine

/-! The shared operations commute with writing OPB. -/

@[simp] theorem inBytes_setOpb (s : State) (o : Operand) : (s.setOpb o).inBytes = s.inBytes := rfl

@[simp] theorem outBytes_setOpb (s : State) (o : Operand) : (s.setOpb o).outBytes = s.outBytes := rfl

@[simp] theorem cap_setOpb (s : State) (o : Operand) : (s.setOpb o).cap = s.cap := rfl

@[simp] theorem takeValue_setOpb (s : State) (o : Operand) (raw : Bool) (tag : Byte) :
    (s.setOpb o).takeValue raw tag = s.takeValue raw tag := rfl

theorem append_setOpb (s : State) (o : Operand) (bs : List Byte) :
    (s.setOpb o).append bs = (·.setOpb o) <$> s.append bs := by
  rcases Nat.lt_or_ge s.cap (s.outLen.toNat + bs.length) with h | h
  · rw [append_of_full h, append_of_full (s := s.setOpb o) h]
    rfl
  · rw [append_of_fits h, append_of_fits (s := s.setOpb o) h]
    rfl

theorem emitValue_setOpb (s : State) (o : Operand) (raw : Bool) (tag : Byte) (v : List Byte) :
    (s.setOpb o).emitValue raw tag v = (·.setOpb o) <$> s.emitValue raw tag v := by
  cases raw with
  | true => exact append_setOpb s o v
  | false => simp [State.emitValue, append_setOpb]

/-! The commands. -/

/-- Command `i` commutes with writing OPB, so it neither reads nor writes it. -/
def IgnoresOpb (i : Instr) : Prop :=
  ∀ (s t : State) (o : Operand), exec i s = .next t → exec i (s.setOpb o) = .next (t.setOpb o)

/-- The commit rule passes OPB through, so that only the command's computation has to be looked at. -/
theorem ignoresOpb_of_result {i : Instr} (f : State → Except ErrorCode State)
    (hexec : ∀ s, exec i s = s.commit i.opcode (f s)) (hf : ∀ s o, f (s.setOpb o) = (·.setOpb o) <$> f s) :
    IgnoresOpb i := by
  intro s t o h
  rw [hexec] at h ⊢
  rw [hf]
  rcases commit_next h with ⟨s', hr, rfl⟩ | ⟨e, hr, rfl⟩ <;> rw [hr] <;> rfl

theorem ignoresOpb_of_valueEncoder {i : Instr} {raw : Bool} {tag : Byte} (x : State → Except ErrorCode (List Byte))
    (hexec : ∀ s, exec i s = s.commit i.opcode (x s >>= fun v => s.emitValue raw tag v))
    (hx : ∀ s o, x (s.setOpb o) = x s) : IgnoresOpb i :=
  ignoresOpb_of_result _ hexec fun s o => by simp [hx, emitValue_setOpb]

theorem ignoresOpb_of_valueDecoder {i : Instr} {raw : Bool} {tag : Byte}
    (f : State → List Byte → Except ErrorCode Operand)
    (hexec : ∀ s, exec i s =
      s.commit i.opcode (s.takeValue raw tag >>= fun v => f s v >>= fun r => pure (s.setOpa r)))
    (hf : ∀ s o, f (s.setOpb o) = f s) : IgnoresOpb i :=
  ignoresOpb_of_result _ hexec fun s o => by simp only [takeValue_setOpb, map_bind, hf]; rfl

/-- Every command but the Quality and Timestamp codecs, whose opcodes are 0x20 to 0x23, ignores OPB. -/
theorem exec_ignoresOpb (i : Instr) (hi : i.opcode ∉ [0x20#8, 0x21#8, 0x22#8, 0x23#8]) : IgnoresOpb i := by
  cases i with
  | qualenc | qualdec | tsenc | tsdec => exact absurd (by simp [Instr.opcode]) hi
  | lenenc => exact ignoresOpb_of_result _ (fun _ => rfl) fun s o => by simp [append_setOpb]
  | tlvenc tag => exact ignoresOpb_of_result _ (fun _ => rfl) fun s o => by simp [append_setOpb]
  | lendec =>
    refine ignoresOpb_of_result _ (fun _ => rfl) fun s o => ?_
    simp only [inBytes_setOpb, map_bind]
    congr 1
    funext ⟨l, q⟩
    by_cases hq : q < s.inBytes.length <;> simp only [hq, if_true, if_false] <;> rfl
  | tlvdec tag =>
    exact ignoresOpb_of_result _ (fun _ => rfl) fun s o => by simp only [inBytes_setOpb, map_bind]; rfl
  | wrap tag =>
    refine ignoresOpb_of_result _ (fun _ => rfl) fun s o => ?_
    simp only [outBytes_setOpb, map_bind, cap_setOpb]
    congr 1
    funext bs
    by_cases hcap : s.cap < bs.length <;> simp only [hcap, if_true, if_false] <;> rfl
  | boolenc raw tag => exact ignoresOpb_of_valueEncoder (fun s => boolval s.opa) (fun _ => rfl) fun _ _ => rfl
  | sintenc raw tag => exact ignoresOpb_of_valueEncoder (fun s => sintval s.opa) (fun _ => rfl) fun _ _ => rfl
  | uintenc raw tag => exact ignoresOpb_of_valueEncoder (fun s => uintval s.opa) (fun _ => rfl) fun _ _ => rfl
  | fltenc prec raw tag =>
    exact ignoresOpb_of_valueEncoder (fun s => fltval s.params prec s.opa) (fun _ => rfl) fun _ _ => rfl
  | booldec raw tag => exact ignoresOpb_of_valueDecoder (fun _ => boolof) (fun _ => rfl) fun _ _ => rfl
  | sintdec raw tag => exact ignoresOpb_of_valueDecoder (fun _ => sintof) (fun _ => rfl) fun _ _ => rfl
  | uintdec raw tag => exact ignoresOpb_of_valueDecoder (fun _ => uintof) (fun _ => rfl) fun _ _ => rfl
  | fltdec prec raw tag =>
    exact ignoresOpb_of_valueDecoder (fun s => fltof s.params prec) (fun _ => rfl) fun _ _ => rfl
  | clrout => exact ignoresOpb_of_result (fun s => .ok s.emptyOut) (fun _ => rfl) fun _ _ => rfl
  | clrst =>
    exact ignoresOpb_of_result (fun s => .ok { s with status := s.status.clearSticky }) (fun _ => rfl) fun _ _ => rfl
  | movoi =>
    exact ignoresOpb_of_result
      (fun s => .ok { s.emptyOut with input := s.input.write 0 s.outBytes, inLen := s.outLen })
      (fun _ => rfl) fun _ _ => rfl

end Sys2Proof.Machine
end

section
/-! PROOFS. What a host access can do, said once. -/

namespace Sys2Proof.Machine

open Sys2Proof.Safety

/-- R161's list for a command names codes that some command writes. -/
theorem mayRaise_subset (i : Instr) : mayRaise i ⊆ writtenCodes := by
  cases i with
  | booldec raw | sintdec raw | uintdec raw | fltdec _ raw | qualdec raw | tsdec raw =>
    cases raw <;> simp [mayRaise, framingCodes, writtenCodes]
  | _ => simp [mayRaise, framingCodes, writtenCodes]

/-- WHAT A CMD WRITE CAN DO (10_state.md R21, R23): LASTOP is the word's own OP either way, and the command either
completes with one of its effects or STATUS alone is written, with a code of R161's. -/
theorem runCommand_cases {w : Word} {s t : State} (h : runCommand w s = .next t) :
    (∃ i s', decode w = .ok i ∧ Effect s i s' ∧ t = s'.complete (opField w)) ∨
    (∃ e : ErrorCode, e.code ∈ writtenCodes ∧ t = s.raiseError (opField w) e) := by
  unfold runCommand at h
  cases hd : decode w with
  | ok i =>
    rw [hd] at h
    obtain ⟨-, hop, -⟩ := decode_ok hd
    rcases exec_cases h with ⟨s', he, rfl⟩ | ⟨e, he, rfl⟩
    · exact .inl ⟨i, s', rfl, he, by rw [hop]⟩
    · exact .inr ⟨e, mayRaise_subset i he, by rw [hop]⟩
  | error e =>
    rw [hd] at h
    exact .inr ⟨.illegalCommand, by decide, (Host.Outcome.next.inj h).symm⟩

/-- Every CMD write answers a next state (10_state.md R21). -/
theorem runCommand_answers (w : Word) (s : State) : ∃ t, runCommand w s = .next t := by
  unfold runCommand
  cases decode w with
  | ok i => exact exec_answers i s
  | error e => exact ⟨_, rfl⟩

/-- WHAT A REGISTER WRITE CAN DO (20_memory.md R44): run a command, write operands (or nothing), or write IN_LEN. -/
theorem writeRegister_cases {n : BitVec 4} {v : DWord} {s t : State} (h : writeRegister n v s = .next t) :
    (n = 0 ∧ runCommand (v.setWidth 32) s = .next t) ∨
    (n ≠ 0 ∧ ((∃ a b, t = (s.setOpa a).setOpb b) ∨ t = s.writeInLen (v.setWidth 32))) := by
  unfold writeRegister at h
  split at h
  case h_1 => exact .inl ⟨rfl, h⟩
  case h_6 => exact .inr ⟨by decide, .inr (Host.Outcome.next.inj h).symm⟩
  case h_7 hn _ _ _ _ _ =>
    exact .inr ⟨hn, .inl ⟨s.opa, s.opb, (Host.Outcome.next.inj h).symm⟩⟩
  all_goals exact .inr ⟨by decide, .inl ⟨_, _, (Host.Outcome.next.inj h).symm⟩⟩

/-- `HostEffect s a t`: what host access `a` other than a CMD write can leave from `s`. -/
inductive HostEffect (s : State) : HostAction → State → Prop
  | wroteOperands {n : BitVec 4} {v : DWord} (hn : n ≠ 0) (a b : Operand) :
      HostEffect s (.writeReg n v) ((s.setOpa a).setOpb b)
  | wroteInLen {n : BitVec 4} {v : DWord} (hn : n ≠ 0) : HostEffect s (.writeReg n v) (s.writeInLen (v.setWidth 32))
  | readRegister (n : BitVec 4) (r : DWord) : HostEffect s (.readReg n) { s with reply := some r }
  | wroteIn (k : Nat) (b : Byte) : HostEffect s (.inWrite k b) (s.inWrite k b)
  | readIn (k : Nat) (r : DWord) : HostEffect s (.inRead k) { s with reply := some r }
  | readOut (k : Nat) (r : DWord) : HostEffect s (.outRead k) { s with reply := some r }
  | reset : HostEffect s .reset s.hostReset

/-- WHAT A HOST ACCESS CAN DO: run a command, or one of the port's own effects. -/
theorem hostAccess_cases {a : HostAction} {s t : State} (h : hostAccess a s = .next t) :
    (∃ v, a = .writeReg 0 v ∧ runCommand (v.setWidth 32) s = .next t) ∨ HostEffect s a t := by
  cases a with
  | writeReg n v =>
    rcases writeRegister_cases h with ⟨rfl, hr⟩ | ⟨hn, ⟨x, y, rfl⟩ | rfl⟩
    · exact .inl ⟨v, rfl, hr⟩
    · exact .inr (.wroteOperands hn x y)
    · exact .inr (.wroteInLen hn)
  | readReg n => cases h; exact .inr (.readRegister n _)
  | inWrite k b => cases h; exact .inr (.wroteIn k b)
  | inRead k => cases h; exact .inr (.readIn k _)
  | outRead k => cases h; exact .inr (.readOut k _)
  | reset => cases h; exact .inr .reset

/-- WHAT A STEP CAN DO, from a state with an access pending: a command runs on the state the port leaves, or one of the
port's own effects happens to it. -/
theorem step_cases {s t : State} (h : step s = .next t) :
    (s.pending = [] ∧ t = s) ∨
    ∃ a rest, s.pending = a :: rest ∧
      ((∃ v, a = .writeReg 0 v ∧ runCommand (v.setWidth 32) (s.accepted rest) = .next t) ∨
        HostEffect (s.accepted rest) a t) := by
  cases hp : s.pending with
  | nil =>
    simp only [step, hp] at h
    exact .inl ⟨rfl, (Host.Outcome.next.inj h).symm⟩
  | cons a rest =>
    rw [step_cons s hp] at h
    exact .inr ⟨a, rest, rfl, hostAccess_cases h⟩

/-! What the port's own effects leave alone. -/

@[simp] theorem writeInLen_params (s : State) (v : Word) : (s.writeInLen v).params = s.params := by
  unfold State.writeInLen
  split_ifs <;> rfl

@[simp] theorem writeInLen_status (s : State) (v : Word) : (s.writeInLen v).status = s.status := by
  unfold State.writeInLen
  split_ifs <;> rfl

@[simp] theorem inWrite_params (s : State) (k : Nat) (b : Byte) : (s.inWrite k b).params = s.params := by
  unfold State.inWrite
  split_ifs <;> rfl

@[simp] theorem inWrite_status (s : State) (k : Nat) (b : Byte) : (s.inWrite k b).status = s.status := by
  unfold State.inWrite
  split_ifs <;> rfl

/-- No host access of the port's own writes the parameters, reset included (10_state.md R18). -/
theorem hostEffect_params {s t : State} {a : HostAction} (h : HostEffect s a t) : t.params = s.params := by
  cases h with
  | wroteInLen hn => exact writeInLen_params s _
  | wroteIn k b => exact inWrite_params s k b
  | _ => rfl

/-- Of the port's own effects only reset writes STATUS (10_state.md R20, R27). -/
theorem hostEffect_status {s t : State} {a : HostAction} (h : HostEffect s a t) (ha : a ≠ .reset) :
    t.status = s.status := by
  cases h with
  | wroteInLen hn => exact writeInLen_status s _
  | wroteIn k b => exact inWrite_status s k b
  | reset => exact absurd rfl ha
  | _ => rfl

/-- A CMD write leaves the parameters alone. -/
theorem runCommand_params {w : Word} {s t : State} (h : runCommand w s = .next t) : t.params = s.params := by
  rcases runCommand_cases h with ⟨i, s', -, he, rfl⟩ | ⟨e, -, rfl⟩
  · exact (complete_params s' _).trans (effect_params he)
  · rfl

/-- STICKY after a CMD write (10_state.md R22): an error sets it, CLRST clears it, nothing else writes it. -/
theorem runCommand_sticky {w : Word} {s t : State} (h : runCommand w s = .next t) :
    t.status.sticky = if t.status.code ≠ 0 then true else if w = 0x31 then false else s.status.sticky := by
  rcases runCommand_cases h with ⟨i, s', hd, he, rfl⟩ | ⟨e, -, rfl⟩
  · have hclr : i = .clrst ↔ w = 0x31 := by rw [← decode_eq_clrst_iff, hd, Except.ok.injEq]
    rw [if_neg (by simp), complete_status, effect_status he]
    simp only [hclr]
    split_ifs <;> rfl
  · exact (if_pos (errorCode_ne_zero e)).symm

end Sys2Proof.Machine
end

section
/-! PROOFS. Every step keeps the invariant. -/

namespace Sys2Proof.Machine

open Sys2Proof.Safety

/-! Writes to a buffer. -/

/-- `m` holds a byte exactly below `n`. -/
def HeldBelow (m : Memory) (n : Nat) : Prop := ∀ a, (m.lookup a).isSome = true ↔ a < n

/-- `m` holds no byte at or above `n`. -/
def NoneFrom (m : Memory) (n : Nat) : Prop := ∀ a, n ≤ a → m.lookup a = none

/-- A write that starts inside what is held, or right above it, and ends no lower, leaves no gap. -/
theorem heldBelow_write {m : Memory} {n : Nat} (h : HeldBelow m n) {a : Nat} {bs : List Byte} (ha : a ≤ n)
    (hn : n ≤ a + bs.length) : HeldBelow (m.write a bs) (a + bs.length) := by
  intro k
  rw [Memory.lookup_write]
  by_cases hk : a ≤ k ∧ k < a + bs.length
  · have : k - a < bs.length := by omega
    simp [hk, this]
  · rw [if_neg hk, h k]
    omega

theorem heldBelow_forget (m : Memory) : HeldBelow m.forget 0 := fun k => by simp

/-- A write below `n` puts nothing at or above `n`. -/
theorem noneFrom_write {m : Memory} {n : Nat} (h : NoneFrom m n) {a : Nat} {bs : List Byte}
    (hn : a + bs.length ≤ n) : NoneFrom (m.write a bs) n := by
  intro k hk
  rw [Memory.lookup_write, if_neg (by omega), h k hk]

/-! The invariant under each update of the state. -/

/-- The capacity is a 32-bit number, so that a length inside it is not cut off (00_scope.md R5). -/
theorem toNat_ofNat_of_le_cap {s : State} {n : Nat} (h : n ≤ s.cap) : (BitVec.ofNat 32 n).toNat = n := by
  have : s.cap < 2 ^ 32 := s.params.bufCap.isLt
  rw [BitVec.toNat_ofNat, Nat.mod_eq_of_lt (by omega)]

/-- OUT rewritten from a buffer `m` that holds a byte exactly below `n`, with OUT_LEN set to the end of the write. -/
theorem inv_writeOut {s : State} (h : Inv s) {m : Memory} {n a : Nat} {bs : List Byte} (hwf : m.wf = true)
    (hm : HeldBelow m n) (ha : a ≤ n) (hn : n ≤ a + bs.length) (hcap : a + bs.length ≤ s.cap) :
    Inv { s with output := m.write a bs, outLen := BitVec.ofNat 32 (a + bs.length) } :=
  have hlen := toNat_ofNat_of_le_cap hcap
  { h with
    output_wf := Memory.wf_write hwf a bs
    output_exact := fun k => (heldBelow_write hm ha hn k).trans (by rw [hlen])
    outLen_le := hlen.trans_le hcap }

theorem inv_writeIn {s : State} (h : Inv s) {a : Nat} {bs : List Byte} (hcap : a + bs.length ≤ s.cap) :
    Inv { s with input := s.input.write a bs } :=
  { h with
    input_wf := Memory.wf_write h.input_wf a bs
    input_inside := noneFrom_write h.input_inside hcap }

theorem inv_setInLen {s : State} (h : Inv s) {v : Word} (hcap : v.toNat ≤ s.cap) : Inv { s with inLen := v } :=
  { h with inLen_le := hcap }

theorem inv_emptyOut {s : State} (h : Inv s) : Inv s.emptyOut :=
  { h with
    output_wf := Memory.wf_forget s.output
    output_exact := heldBelow_forget s.output
    outLen_le := Nat.zero_le _ }

theorem inv_accepted {s : State} (h : Inv s) (rest : List HostAction) : Inv (s.accepted rest) := { h with }

theorem inv_setOpa {s : State} (h : Inv s) (o : Operand) : Inv (s.setOpa o) := { h with }

theorem inv_setOpb {s : State} (h : Inv s) (o : Operand) : Inv (s.setOpb o) := { h with }

theorem inv_reply {s : State} (h : Inv s) (r : Option DWord) : Inv { s with reply := r } := { h with }

/-- Completing writes CODE 0x00, which asks nothing of STICKY. -/
theorem inv_complete {s : State} (h : Inv s) (op : Byte) : Inv (s.complete op) :=
  { h with
    code_written := by simp [writtenCodes]
    sticky_on_error := fun hne => absurd rfl hne }

/-- An error writes its code and sets STICKY. -/
theorem inv_raiseError {s : State} (h : Inv s) (op : Byte) {e : ErrorCode} (he : e.code ∈ writtenCodes) :
    Inv (s.raiseError op e) :=
  { h with
    code_written := he
    sticky_on_error := fun _ => rfl }

/-! The invariant over a command. -/

/-- A command that completes keeps the invariant. CLRST clears STICKY before CODE is written, so that the invariant
holds after completion and not before it. -/
theorem inv_complete_effect {s s' : State} {i : Instr} (h : Inv s) (he : Effect s i s') (op : Byte) :
    Inv (s'.complete op) := by
  cases he with
  | appended hi ha =>
    obtain ⟨hfit, rfl⟩ := append_ok ha
    exact inv_complete (inv_writeOut h h.output_wf h.output_exact le_rfl (Nat.le_add_right _ _) hfit) op
  | operands a b hi => exact inv_complete (inv_setOpb (inv_setOpa h a) b) op
  | @replaced tag v o hlt =>
    have hcap : 0 + v.length ≤ s.cap := by
      have := h.inLen_le
      omega
    have hout := inv_writeOut h (Memory.wf_forget s.output) (heldBelow_forget s.output) le_rfl (Nat.zero_le _) hcap
    rw [Nat.zero_add] at hout
    exact inv_complete (inv_setOpa hout o) op
  | @wrapped tag bs hlong hfit =>
    have hout := inv_writeOut h (a := 0) (bs := bs) h.output_wf h.output_exact (Nat.zero_le _) (by omega) (by omega)
    rw [Nat.zero_add] at hout
    exact inv_complete hout op
  | emptied => exact inv_complete (inv_emptyOut h) op
  | cleared => exact { inv_complete h op with sticky_on_error := fun hne => absurd rfl hne }
  | moved =>
    have hmove : 0 + s.outBytes.length ≤ s.cap := by
      have := h.outLen_le
      rw [outBytes_length]
      omega
    exact inv_complete (inv_setInLen (inv_writeIn (inv_emptyOut h) hmove) h.outLen_le) op

/-- A CMD write keeps the invariant. -/
theorem inv_runCommand {w : Word} {s t : State} (h : Inv s) (hr : runCommand w s = .next t) : Inv t := by
  rcases runCommand_cases hr with ⟨i, s', -, he, rfl⟩ | ⟨e, he, rfl⟩
  · exact inv_complete_effect h he _
  · exact inv_raiseError h _ he

/-! The invariant over a host access. -/

theorem inv_writeInLen {s : State} (h : Inv s) (v : Word) : Inv (s.writeInLen v) := by
  unfold State.writeInLen
  split_ifs with hv
  · exact inv_setInLen h hv
  · exact h

theorem inv_inWrite {s : State} (h : Inv s) (k : Nat) (b : Byte) : Inv (s.inWrite k b) := by
  unfold State.inWrite
  split_ifs with hk
  · exact inv_writeIn h hk
  · exact h

/-- Buffers of unspecified bytes, lengths 0 and STATUS 0 satisfy the invariant under every allowed choice
of parameters. -/
theorem inv_resetWith {p : Config.Params} (hp : p.ok = true) : Inv (State.resetWith p) where
  params_ok := hp
  input_wf := Memory.wf_fresh 0
  output_wf := Memory.wf_fresh 0
  input_inside := fun _ _ => rfl
  output_exact := fun a => by simp [State.resetWith]
  inLen_le := Nat.zero_le _
  outLen_le := Nat.zero_le _
  code_written := by simp [State.resetWith, writtenCodes]
  sticky_on_error := fun hne => absurd rfl hne

theorem inv_hostReset {s : State} (h : Inv s) : Inv s.hostReset :=
  { inv_resetWith h.params_ok with
    output_exact := heldBelow_forget s.output }

/-- One of the port's own effects keeps the invariant. -/
theorem inv_hostEffect {s t : State} {a : HostAction} (h : Inv s) (he : HostEffect s a t) : Inv t := by
  cases he with
  | wroteOperands hn x y => exact inv_setOpb (inv_setOpa h x) y
  | wroteInLen hn => exact inv_writeInLen h _
  | wroteIn k b => exact inv_inWrite h k b
  | readRegister | readIn | readOut => exact inv_reply h _
  | reset => exact inv_hostReset h

end Sys2Proof.Machine
end

section
/-! PROOFS. The statements about the state (10_state.md). -/

namespace Sys2Proof.Machine

open Sys2Proof.Safety

/-- Settles O13: what a step can do, and the invariant over each case of it. -/
theorem stepKeepsInvariant : Obligations.StepKeepsInvariant := by
  intro s t hinv h
  rcases step_cases h with ⟨-, rfl⟩ | ⟨a, rest, -, ⟨v, -, hr⟩ | he⟩
  · exact hinv
  · exact inv_runCommand (inv_accepted hinv rest) hr
  · exact inv_hostEffect (inv_accepted hinv rest) he

/-- Settles O8: a CMD write answers, and both ways a command ends write the word's OP field to LASTOP. -/
theorem everyCmdWriteSetsLastop : Obligations.EveryCmdWriteSetsLastop := by
  intro s v rest hp
  obtain ⟨t, ht⟩ := runCommand_answers (v.setWidth 32) (s.accepted rest)
  have hop : opField (v.setWidth 32) = v.extractLsb' 0 8 := by
    unfold opField
    ext k hk
    grind
  refine ⟨t, (step_cons s hp).trans ht, ?_⟩
  rcases runCommand_cases ht with ⟨i, s', -, -, rfl⟩ | ⟨e, -, rfl⟩ <;> exact hop

/-- Settles O11, by the kind of access: a CMD write, reset, or any other. -/
theorem stickyBitRule : Obligations.StickyBitRule := by
  intro s t a rest hp h
  rw [step_cons s hp] at h
  rcases hostAccess_cases h with ⟨v, rfl, hr⟩ | he
  · simpa using runCommand_sticky hr
  · cases he with
    | reset => rfl
    | wroteOperands hn x y => exact (if_neg hn).symm
    | wroteInLen hn => exact (congrArg Status.sticky (writeInLen_status _ _)).trans (if_neg hn).symm
    | wroteIn k b => exact congrArg Status.sticky (inWrite_status _ k b)
    | readRegister | readIn | readOut => rfl

/-- Settles O15: the parameters over each case of a step, and register 8 read off the register map. -/
theorem parametersNeverChange : Obligations.ParametersNeverChange := by
  refine ⟨fun s t h => ?_, fun s rest hp => step_cons s hp⟩
  rcases step_cases h with ⟨-, rfl⟩ | ⟨a, rest, -, ⟨v, -, hr⟩ | he⟩
  · rfl
  · exact (runCommand_params hr).trans (accepted_params s rest)
  · exact (hostEffect_params he).trans (accepted_params s rest)

/-- Settles O17: commuting with writing OPB says that OPB is not read; taken at the value OPB has, that it is not
written. -/
theorem opbServesQualityOnly : Obligations.OpbServesQualityOnly := by
  intro i s t o hi h
  have hcomm := exec_ignoresOpb i hi s t
  refine ⟨?_, hcomm o h⟩
  have hsame : exec i s = .next (t.setOpb s.opb) := hcomm s.opb h
  have ht : t = t.setOpb s.opb := Host.Outcome.next.inj (h.symm.trans hsame)
  exact (congrArg State.opb ht).trans (setOpb_opb t s.opb)

/-- Settles O5: the port hands the written word to `runCommand`, which runs what it decodes to. -/
theorem stepRunsDecodedCommand : Obligations.StepRunsDecodedCommand := by
  intro s v rest i hp hd
  calc step s = runCommand (v.setWidth 32) (s.accepted rest) := step_cons s hp
    _ = exec i (taken s rest) := by rw [runCommand, hd]; rfl

/-- Settles O14. -/
theorem resetSatisfiesInvariant : Obligations.ResetSatisfiesInvariant :=
  ⟨fun _ hp => inv_resetWith hp, inv_resetWith (by decide)⟩

/-- Settles O24: each field is read off the reset state, and each register off the register map. -/
theorem resetStateOfR27 : Obligations.ResetStateOfR27 := by
  intro p
  have hbuffers : ∀ a, (State.resetWith p).input.lookup a = none ∧ (State.resetWith p).output.lookup a = none :=
    fun a => ⟨Memory.lookup_fresh 0 a, Memory.lookup_fresh 0 a⟩
  have hstatus : (State.resetWith p).readReg 1 = 0 := by
    show (Status.word { code := 0, lastop := 0, sticky := false }).setWidth 64 = 0
    decide
  exact ⟨rfl, rfl, rfl, rfl, hbuffers, rfl, hstatus, rfl⟩

end Sys2Proof.Machine
end

section
/-! PROOFS. A command sees nothing of IN at or above IN_LEN and nothing of OUT at or above OUT_LEN (20_memory.md R41,
10_state.md R26): from two states that differ only there, it comes to the same error or to two such states. -/

namespace Sys2Proof.Machine

open Sys2Proof.Safety

/-! What a command reads of the buffers is the same in both states. -/

theorem sameVisible_cap {s s' : State} (h : SameVisible s s') : s'.cap = s.cap :=
  congrArg (fun p => p.bufCap.toNat) h.params

theorem sameVisible_inBytes {s s' : State} (h : SameVisible s s') : s'.inBytes = s.inBytes := by
  unfold State.inBytes
  rw [h.inLen]
  exact List.map_congr_left fun a ha => h.input a (List.mem_range.1 ha)

theorem sameVisible_outBytes {s s' : State} (h : SameVisible s s') : s'.outBytes = s.outBytes := by
  unfold State.outBytes
  rw [h.outLen]
  exact List.map_congr_left fun a ha => h.output a (List.mem_range.1 ha)

theorem sameVisible_takeValue {s s' : State} (h : SameVisible s s') (raw : Bool) (tag : Byte) :
    s'.takeValue raw tag = s.takeValue raw tag := by
  unfold State.takeValue
  rw [sameVisible_inBytes h]

/-! The updates of the state keep `SameVisible`. -/

theorem sameVisible_setOpa {s s' : State} (h : SameVisible s s') (o : Operand) :
    SameVisible (s.setOpa o) (s'.setOpa o) := { h with opa := rfl }

theorem sameVisible_setOpb {s s' : State} (h : SameVisible s s') (o : Operand) :
    SameVisible (s.setOpb o) (s'.setOpb o) := { h with opb := rfl }

theorem sameVisible_clearSticky {s s' : State} (h : SameVisible s s') :
    SameVisible { s with status := s.status.clearSticky } { s' with status := s'.status.clearSticky } :=
  { h with status := congrArg Status.clearSticky h.status }

theorem sameVisible_complete {s s' : State} (h : SameVisible s s') (op : Byte) :
    SameVisible (s.complete op) (s'.complete op) :=
  { h with status := congrArg (Status.completed · op) h.status }

theorem sameVisible_raiseError {s s' : State} (h : SameVisible s s') (op : Byte) (e : ErrorCode) :
    SameVisible (s.raiseError op e) (s'.raiseError op e) := { h with status := rfl }

theorem sameVisible_emptyOut {s s' : State} (h : SameVisible s s') : SameVisible s.emptyOut s'.emptyOut :=
  { h with
    outLen := rfl
    output := fun _ ha => absurd ha (Nat.not_lt_zero _) }

/-- The bytes of IN below `n` are all written, so nothing of the old IN shows. -/
theorem sameVisible_writeIn {s s' : State} (h : SameVisible s s') {bs : List Byte} {n : Word}
    (hn : n.toNat ≤ bs.length) :
    SameVisible { s with input := s.input.write 0 bs, inLen := n }
      { s' with input := s'.input.write 0 bs, inLen := n } where
  __ := h
  inLen := rfl
  input := fun k (hk : k < n.toNat) => by
    have hin : 0 ≤ k ∧ k < 0 + bs.length := by omega
    calc ({ s' with input := s'.input.write 0 bs } : State).inByte k
        = bs.getD (k - 0) 0 := by rw [inByte_write, if_pos hin]
      _ = ({ s with input := s.input.write 0 bs } : State).inByte k := by rw [inByte_write, if_pos hin]

/-- OUT written from index `a` up to the new OUT_LEN or beyond, over buffers that show the same bytes below `a`. -/
theorem sameVisible_writeOut {s s' : State} (h : SameVisible s s') {m m' : Memory} {a : Nat} {bs : List Byte} {n : Word}
    (hm : ∀ k, k < a → ({ s' with output := m' } : State).outByte k = ({ s with output := m } : State).outByte k)
    (hn : n.toNat ≤ a + bs.length) :
    SameVisible { s with output := m.write a bs, outLen := n } { s' with output := m'.write a bs, outLen := n } where
  __ := h
  outLen := rfl
  output := fun k (hk : k < n.toNat) => by
    have hs := outByte_write { s with output := m } a bs k
    have hs' := outByte_write { s' with output := m' } a bs k
    by_cases hka : k < a
    · rw [if_neg (by omega)] at hs hs'
      exact hs'.trans ((hm k hka).trans hs.symm)
    · rw [if_pos (by omega)] at hs hs'
      exact hs'.trans hs.symm

/-- OUT's contents written anew from index 0, whatever the buffers held. -/
theorem sameVisible_rewriteOut {s s' : State} (h : SameVisible s s') (m m' : Memory) (bs : List Byte) :
    SameVisible { s with output := m.write 0 bs, outLen := BitVec.ofNat 32 bs.length }
      { s' with output := m'.write 0 bs, outLen := BitVec.ofNat 32 bs.length } :=
  sameVisible_writeOut h (fun _ hk => absurd hk (Nat.not_lt_zero _))
    (by rw [Nat.zero_add, BitVec.toNat_ofNat]; exact Nat.mod_le _ _)

/-! The computations of the commands. -/

/-- The same error, or two states that a command cannot tell apart. -/
inductive SameOutcome : Except ErrorCode State → Except ErrorCode State → Prop
  | ok {s s' : State} (h : SameVisible s s') : SameOutcome (.ok s) (.ok s')
  | error (e : ErrorCode) : SameOutcome (.error e) (.error e)

/-- The sequence rule: a first step that gives the same in both states, then steps with the same outcome. -/
theorem sameOutcome_bind {α : Type} {x x' : Except ErrorCode α} {f f' : α → Except ErrorCode State} (hx : x' = x)
    (hf : ∀ a, SameOutcome (f a) (f' a)) : SameOutcome (x >>= f) (x' >>= f') := by
  subst hx
  cases x' with
  | ok a => exact hf a
  | error e => exact .error e

theorem sameOutcome_append {s s' : State} (h : SameVisible s s') (bs : List Byte) :
    SameOutcome (s.append bs) (s'.append bs) := by
  have hcap := sameVisible_cap h
  have hlen := congrArg BitVec.toNat h.outLen
  rcases Nat.lt_or_ge s.cap (s.outLen.toNat + bs.length) with hfull | hfits
  · rw [append_of_full hfull, append_of_full (s := s') (by omega)]
    exact .error _
  · rw [append_of_fits hfits, append_of_fits (s := s') (by omega), hlen]
    exact .ok (sameVisible_writeOut h h.output (by rw [BitVec.toNat_ofNat]; exact Nat.mod_le _ _))

theorem sameOutcome_emitValue {s s' : State} (h : SameVisible s s') (raw : Bool) (tag : Byte) (v : List Byte) :
    SameOutcome (s.emitValue raw tag v) (s'.emitValue raw tag v) := by
  cases raw with
  | true => exact sameOutcome_append h v
  | false => exact sameOutcome_bind rfl fun bs => sameOutcome_append h bs

/-- The shape of every value encoder: make the value portion, then emit it. -/
theorem sameOutcome_valueEncoder {s s' : State} (h : SameVisible s s') {x x' : Except ErrorCode (List Byte)}
    (raw : Bool) (tag : Byte) (hx : x' = x) :
    SameOutcome (x >>= fun v => s.emitValue raw tag v) (x' >>= fun v => s'.emitValue raw tag v) :=
  sameOutcome_bind hx fun v => sameOutcome_emitValue h raw tag v

/-- The shape of every value decoder: take the value portion, read it, write the operands made of what was read. -/
theorem sameOutcome_valueDecoder {s s' : State} (h : SameVisible s s') {α : Type}
    {f f' : List Byte → Except ErrorCode α} {w : State → α → State} (raw : Bool) (tag : Byte) (hf : f' = f)
    (hw : ∀ r, SameVisible (w s r) (w s' r)) :
    SameOutcome (s.takeValue raw tag >>= fun v => f v >>= fun r => pure (w s r))
      (s'.takeValue raw tag >>= fun v => f' v >>= fun r => pure (w s' r)) :=
  sameOutcome_bind (sameVisible_takeValue h raw tag) fun v => sameOutcome_bind (congrFun hf v) fun r => .ok (hw r)

/-- EVERY COMMAND, from two states it cannot tell apart, commits computations with the same outcome. -/
theorem exec_sameOutcome (i : Instr) {s s' : State} (h : SameVisible s s') :
    ∃ r r', exec i s = s.commit i.opcode r ∧ exec i s' = s'.commit i.opcode r' ∧ SameOutcome r r' := by
  cases i with
  | lenenc =>
    refine ⟨_, _, rfl, rfl, sameOutcome_bind (by rw [h.opa]) fun l => ?_⟩
    exact sameOutcome_bind rfl fun bs => sameOutcome_append h bs
  | lendec =>
    refine ⟨_, _, rfl, rfl, sameOutcome_bind (by rw [sameVisible_inBytes h]) fun ⟨l, q⟩ => ?_⟩
    dsimp only
    rw [sameVisible_inBytes h]
    split_ifs
    · exact .error _
    · exact .ok (sameVisible_setOpa h _)
  | tlvenc tag =>
    refine ⟨_, _, rfl, rfl, sameOutcome_bind (by rw [sameVisible_inBytes h]) fun bs => ?_⟩
    exact sameOutcome_append h bs
  | tlvdec tag =>
    refine ⟨_, _, rfl, rfl, sameOutcome_bind (by rw [sameVisible_inBytes h]) fun v => ?_⟩
    exact .ok (sameVisible_setOpa (sameVisible_rewriteOut h _ _ v) _)
  | wrap tag =>
    refine ⟨_, _, rfl, rfl, sameOutcome_bind (by rw [sameVisible_outBytes h]) fun bs => ?_⟩
    rw [sameVisible_cap h]
    split_ifs
    · exact .error _
    · exact .ok (sameVisible_rewriteOut h _ _ bs)
  | boolenc raw tag => exact ⟨_, _, rfl, rfl, sameOutcome_valueEncoder h raw tag (by rw [h.opa])⟩
  | sintenc raw tag => exact ⟨_, _, rfl, rfl, sameOutcome_valueEncoder h raw tag (by rw [h.opa])⟩
  | uintenc raw tag => exact ⟨_, _, rfl, rfl, sameOutcome_valueEncoder h raw tag (by rw [h.opa])⟩
  | fltenc prec raw tag => exact ⟨_, _, rfl, rfl, sameOutcome_valueEncoder h raw tag (by rw [h.params, h.opa])⟩
  | qualenc raw tag => exact ⟨_, _, rfl, rfl, sameOutcome_valueEncoder h raw tag (by rw [h.opb])⟩
  | tsenc raw tag => exact ⟨_, _, rfl, rfl, sameOutcome_valueEncoder h raw tag (by rw [h.opa, h.opb])⟩
  | booldec raw tag => exact ⟨_, _, rfl, rfl, sameOutcome_valueDecoder h raw tag rfl (sameVisible_setOpa h)⟩
  | sintdec raw tag => exact ⟨_, _, rfl, rfl, sameOutcome_valueDecoder h raw tag rfl (sameVisible_setOpa h)⟩
  | uintdec raw tag => exact ⟨_, _, rfl, rfl, sameOutcome_valueDecoder h raw tag rfl (sameVisible_setOpa h)⟩
  | fltdec prec raw tag =>
    exact ⟨_, _, rfl, rfl, sameOutcome_valueDecoder h raw tag (by rw [h.params]) (sameVisible_setOpa h)⟩
  | qualdec raw tag => exact ⟨_, _, rfl, rfl, sameOutcome_valueDecoder h raw tag rfl (sameVisible_setOpb h)⟩
  | tsdec raw tag =>
    exact ⟨_, _, rfl, rfl, sameOutcome_valueDecoder h raw tag rfl
      (w := fun s (r : Operand × Operand) => (s.setOpa r.1).setOpb r.2)
      fun r => sameVisible_setOpb (sameVisible_setOpa h r.1) r.2⟩
  | clrout => exact ⟨.ok _, .ok _, rfl, rfl, .ok (sameVisible_emptyOut h)⟩
  | clrst => exact ⟨.ok _, .ok _, rfl, rfl, .ok (sameVisible_clearSticky h)⟩
  | movoi =>
    refine ⟨.ok _, .ok _, rfl, rfl, .ok ?_⟩
    rw [sameVisible_outBytes h, h.outLen]
    exact sameVisible_writeIn (sameVisible_emptyOut h) (outBytes_length s).ge

/-- Settles O16: the two computations end in the same error or in states that look the same, and the commit rule keeps
that. -/
theorem commandIgnoresBytesBeyondLengths : Obligations.CommandIgnoresBytesBeyondLengths := by
  intro i s s' t t' h ht ht'
  obtain ⟨r, r', hr, hr', hsame⟩ := exec_sameOutcome i h
  rw [hr] at ht
  rw [hr'] at ht'
  cases hsame with
  | ok hv => cases ht; cases ht'; exact sameVisible_complete hv _
  | error e => cases ht; cases ht'; exact sameVisible_raiseError h _ e

end Sys2Proof.Machine
end

section
/-! PROOFS. What the port's accesses do, register by register and byte by byte, and that making one again changes
nothing more. -/

namespace Sys2Proof.Machine

/-! Writing the same bytes again. -/

/-- The second write drops what the first one wrote and writes it again. -/
theorem Memory.write_again (m : Memory) (a : Nat) (bs : List Byte) : (m.write a bs).write a bs = m.write a bs := by
  have hbelow : (cellsFrom a bs).filter (fun c => c.1 < a) = [] :=
    List.filter_eq_nil_iff.2 fun c hc => by simpa using (mem_cellsFrom hc).1
  have habove : (cellsFrom a bs).filter (fun c => a + bs.length ≤ c.1) = [] :=
    List.filter_eq_nil_iff.2 fun c hc => by simpa using (mem_cellsFrom hc).2
  have hlow : (m.cells.filter (fun c => a + bs.length ≤ c.1)).filter (fun c => c.1 < a) = [] := by
    rw [List.filter_filter]
    exact List.filter_eq_nil_iff.2 fun c _ => by simp; omega
  have hhigh : (m.cells.filter (fun c => c.1 < a)).filter (fun c => a + bs.length ≤ c.1) = [] := by
    rw [List.filter_filter]
    exact List.filter_eq_nil_iff.2 fun c _ => by simp; omega
  simp only [Memory.write, List.filter_append, hbelow, habove, hlow, hhigh, List.filter_filter, Bool.and_self,
    List.append_nil, List.nil_append]

/-! The register map (20_memory.md R44), one equation for the reads and one for the writes. -/

theorem readReg_eq (s : State) (n : BitVec 4) :
    s.readReg n =
      if n = 1 then s.status.word.setWidth 64
      else if n = 2 then s.opa.kind.setWidth 64
      else if n = 3 then s.opa.val
      else if n = 4 then s.opb.kind.setWidth 64
      else if n = 5 then s.opb.val
      else if n = 6 then s.inLen.setWidth 64
      else if n = 7 then s.outLen.setWidth 64
      else if n = 8 then s.params.bufCap.setWidth 64
      else 0 := by
  unfold State.readReg
  split
  case h_10 => simp_all
  all_goals rfl

/-- What a write of a register other than CMD leaves. -/
def State.portWrite (s : State) (n : BitVec 4) (v : DWord) : State :=
  if n = 2 then s.setOpa { s.opa with kind := v.setWidth 4 }
  else if n = 3 then s.setOpa { s.opa with val := v }
  else if n = 4 then s.setOpb { s.opb with kind := v.setWidth 4 }
  else if n = 5 then s.setOpb { s.opb with val := v }
  else if n = 6 then s.writeInLen (v.setWidth 32)
  else s

theorem writeRegister_eq {n : BitVec 4} (hn : n ≠ 0) (v : DWord) (s : State) :
    writeRegister n v s = .next (s.portWrite n v) := by
  unfold writeRegister State.portWrite
  split
  case h_1 => exact absurd rfl hn
  case h_7 => simp_all
  all_goals rfl

/-! The guards of IN_LEN and IN (20_memory.md R45, R46). -/

theorem writeInLen_of_le {s : State} {v : Word} (h : v.toNat ≤ s.cap) : s.writeInLen v = { s with inLen := v } :=
  if_pos h

theorem writeInLen_of_gt {s : State} {v : Word} (h : s.cap < v.toNat) : s.writeInLen v = s := if_neg (Nat.not_le.2 h)

theorem inWrite_of_lt {s : State} {k : Nat} (h : k < s.cap) (b : Byte) :
    s.inWrite k b = { s with input := s.input.write k [b] } := if_pos h

theorem inWrite_of_ge {s : State} {k : Nat} (h : s.cap ≤ k) (b : Byte) : s.inWrite k b = s := if_neg (Nat.not_lt.2 h)

/-- Whether or not it is ignored, `in_write` touches IN alone. -/
theorem inWrite_eq (s : State) (k : Nat) (b : Byte) : s.inWrite k b = { s with input := (s.inWrite k b).input } := by
  rcases Nat.lt_or_ge k s.cap with hk | hk
  · rw [inWrite_of_lt hk]
  · rw [inWrite_of_ge hk]

theorem inByte_inWrite {s : State} {k : Nat} (h : k < s.cap) (b : Byte) (a : Nat) :
    (s.inWrite k b).inByte a = if a = k then b else s.inByte a := by
  rw [inWrite_of_lt h, inByte_write]
  by_cases ha : a = k
  · simp [ha]
  · rw [if_neg (by simp only [List.length_singleton]; omega), if_neg ha]

/-- Of the port's own effects only reset touches OUT. -/
theorem hostEffect_output {s t : State} {a : HostAction} (h : HostEffect s a t) (ha : a ≠ .reset) :
    t.output = s.output ∧ t.outLen = s.outLen := by
  cases h with
  | @wroteInLen n v hn =>
    rcases Nat.lt_or_ge s.cap (v.setWidth 32).toNat with hv | hv
    · rw [writeInLen_of_gt hv]; exact ⟨rfl, rfl⟩
    · rw [writeInLen_of_le hv]; exact ⟨rfl, rfl⟩
  | wroteIn k b => rw [inWrite_eq]; exact ⟨rfl, rfl⟩
  | reset => exact absurd rfl ha
  | _ => exact ⟨rfl, rfl⟩

/-! An access made again. -/

/-- `t` is a state with the accesses `r` to come in which access `a`, taken from the port, changes nothing: not even the
reply, which taking an access clears and `a` must give again. -/
def Repeats (a : HostAction) (r : List HostAction) (t : State) : Prop :=
  t.pending = r ∧ ∀ rest, hostAccess a (t.accepted rest) = .next { t with pending := rest }

/-- A read hands back a value that neither the port's queue nor the last reply has a part in. -/
theorem repeats_read {a : HostAction} (f : State → DWord)
    (ha : ∀ u, hostAccess a u = .next { u with reply := some (f u) })
    (hf : ∀ (u : State) (rest : List HostAction), f (u.accepted rest) = f u) (s : State) :
    Repeats a s.pending { s with reply := some (f s) } :=
  ⟨rfl, fun rest => by
    have hsame : f ({ s with reply := some (f s) }.accepted rest) = f s := hf s rest
    rw [ha, hsame]
    rfl⟩

/-- A write that changes nothing the second time, and that neither reads nor writes what the port keeps for itself. -/
theorem repeats_write {a : HostAction} (g : State → State) (ha : ∀ u, hostAccess a u = .next (g u))
    (hport : ∀ (u : State) rest, g (u.accepted rest) = (g u).accepted rest) (hg : ∀ u, g (g u) = g u) (s : State)
    (r : List HostAction) : Repeats a r (g (s.accepted r)) := by
  rw [hport]
  refine ⟨rfl, fun rest => ?_⟩
  calc hostAccess a ((g s).accepted rest) = .next (g ((g s).accepted rest)) := ha _
    _ = .next ((g s).accepted rest) := by rw [hport, hg]

theorem writeInLen_accepted (s : State) (rest : List HostAction) (v : Word) :
    (s.accepted rest).writeInLen v = (s.writeInLen v).accepted rest := by
  rcases Nat.lt_or_ge s.cap v.toNat with hv | hv
  · rw [writeInLen_of_gt hv, writeInLen_of_gt (s := s.accepted rest) hv]
  · rw [writeInLen_of_le hv, writeInLen_of_le (s := s.accepted rest) hv]
    rfl

theorem writeInLen_again (s : State) (v : Word) : (s.writeInLen v).writeInLen v = s.writeInLen v := by
  rcases Nat.lt_or_ge s.cap v.toNat with hv | hv
  · rw [writeInLen_of_gt hv, writeInLen_of_gt hv]
  · rw [writeInLen_of_le hv, writeInLen_of_le (s := { s with inLen := v }) hv]

theorem portWrite_accepted (s : State) (rest : List HostAction) (n : BitVec 4) (v : DWord) :
    (s.accepted rest).portWrite n v = (s.portWrite n v).accepted rest := by
  unfold State.portWrite
  rw [writeInLen_accepted]
  split_ifs <;> rfl

theorem portWrite_again (s : State) (n : BitVec 4) (v : DWord) : (s.portWrite n v).portWrite n v = s.portWrite n v := by
  by_cases h6 : n = 6
  · subst h6
    exact writeInLen_again s _
  · simp only [State.portWrite, h6, if_false]
    split_ifs <;> rfl

theorem inWrite_accepted (s : State) (rest : List HostAction) (k : Nat) (b : Byte) :
    (s.accepted rest).inWrite k b = (s.inWrite k b).accepted rest := by
  rcases Nat.lt_or_ge k s.cap with hk | hk
  · rw [inWrite_of_lt hk, inWrite_of_lt (s := s.accepted rest) hk]
    rfl
  · rw [inWrite_of_ge hk, inWrite_of_ge (s := s.accepted rest) hk]

theorem inWrite_again (s : State) (k : Nat) (b : Byte) : (s.inWrite k b).inWrite k b = s.inWrite k b := by
  rcases Nat.lt_or_ge k s.cap with hk | hk
  · rw [inWrite_of_lt hk, inWrite_of_lt (s := { s with input := s.input.write k [b] }) hk, Memory.write_again]
  · rw [inWrite_of_ge hk, inWrite_of_ge hk]

/-- Every access but reset and a CMD write can be made again at once and changes nothing more (20_memory.md R48). -/
theorem hostAccess_repeats {a : HostAction} {s t : State} {r : List HostAction} (hreset : a ≠ .reset)
    (hcmd : ∀ v, a ≠ .writeReg 0 v) (h : hostAccess a (s.accepted r) = .next t) : Repeats a r t := by
  cases a with
  | writeReg n v =>
    have hn : n ≠ 0 := by rintro rfl; exact hcmd v rfl
    have ht := (writeRegister_eq hn v (s.accepted r)).symm.trans h
    cases ht
    exact repeats_write (a := .writeReg n v) (·.portWrite n v) (writeRegister_eq hn v)
      (portWrite_accepted · · n v) (portWrite_again · n v) s r
  | readReg n => cases h; exact repeats_read (·.readReg n) (fun _ => rfl) (fun _ _ => rfl) (s.accepted r)
  | inWrite k b =>
    cases h
    exact repeats_write (·.inWrite k b) (fun _ => rfl) (inWrite_accepted · · k b) (inWrite_again · k b) s r
  | inRead k =>
    cases h
    exact repeats_read (fun u => (u.inRead k).setWidth 64) (fun _ => rfl) (fun _ _ => rfl) (s.accepted r)
  | outRead k =>
    cases h
    exact repeats_read (fun u => (u.outRead k).setWidth 64) (fun _ => rfl) (fun _ _ => rfl) (s.accepted r)
  | reset => exact absurd rfl hreset

end Sys2Proof.Machine
end

section
/-! PROOFS. The statements about the host's accesses (20_memory.md R44 to R48). -/

namespace Sys2Proof.Machine

/-- Settles O20: `in_write` by its guard, the two reads as the port defines them, and OUT by what a host access can
do. -/
theorem hostBufferAccess : Obligations.HostBufferAccess := by
  refine ⟨fun s i b rest hp => ?_, fun s i rest hp => step_cons s hp, fun s i rest hp => step_cons s hp, ?_⟩
  · refine ⟨((s.accepted rest).inWrite i b).input, ?_, fun hi a => ?_, fun hi => ?_⟩
    · exact (step_cons s hp).trans (congrArg _ (inWrite_eq (s.accepted rest) i b))
    · exact inByte_inWrite (s := s.accepted rest) hi b a
    · rw [inWrite_of_ge (s := s.accepted rest) hi, accepted_input]
  · intro s t a rest hp hreset hcmd h
    rw [step_cons s hp] at h
    rcases hostAccess_cases h with ⟨v, hv, -⟩ | he
    · exact absurd hv (hcmd v)
    · obtain ⟨hout, hlen⟩ := hostEffect_output he hreset
      exact ⟨hlen, fun k => by simp only [State.outByte, hout, accepted_output]⟩

/-- Settles O22: both steps take the same access, and every access but reset and a CMD write repeats. -/
theorem repeatedAccessChangesNothingMore : Obligations.RepeatedAccessChangesNothingMore := by
  intro s t a rest hp hreset hcmd h
  rw [step_cons s hp] at h
  obtain ⟨hpending, hagain⟩ := hostAccess_repeats hreset hcmd h
  exact ⟨hpending, (step_cons t hpending).trans (hagain rest)⟩

/-- Settles O18: the register map on the state the port leaves. -/
theorem registerReadMap : Obligations.RegisterReadMap := by
  intro s n rest hp
  have hread := readReg_eq (s.accepted rest) n
  calc step s = .next { s.accepted rest with reply := some ((s.accepted rest).readReg n) } := step_cons s hp
    _ = _ := by rw [hread]; rfl

/-- Settles O19: the register map's writes, the kind registers taking the low 4 bits of the access. -/
theorem registerWriteMap : Obligations.RegisterWriteMap := by
  intro s n v rest hp h0 h6
  have hkind : v.setWidth 4 = v.extractLsb' 0 4 := BitVec.setWidth_eq_extractLsb' (by decide)
  calc step s = writeRegister n v (s.accepted rest) := step_cons s hp
    _ = .next ((s.accepted rest).portWrite n v) := writeRegister_eq h0 v _
    _ = _ := by rw [State.portWrite, hkind, if_neg h6]; rfl

/-- Settles O21: the port hands the low 32 bits to `State.writeInLen`, whose guard is the statement's. -/
theorem inLenWriteGuard : Obligations.InLenWriteGuard := fun s _ _ hp => step_cons s hp

end Sys2Proof.Machine
end

section
/-! PROOFS. Which words decode (30_encoding.md R66), and the decoder on the encoder's words. -/

namespace Sys2Proof

/-! What R66 asks of the fields below RSV, class by class. -/

/-- The conditions of R66 on OP, TAG and MOD for a command of class `c`; `legal_iff` ties them to `legal`. -/
def FieldsLegal (op tag mod : Byte) : OpClass → Prop
  | .length | .control => tag = 0 ∧ mod = 0
  | .framing => mod = 0
  | .valueCodec =>
    mod.extractLsb' 2 6 = 0 ∧ (mod[1] = true → op = 0x16#8 ∨ op = 0x17#8) ∧ (mod[0] = true → tag = 0)

/-- The fields below RSV are those of a legal word. -/
def OpcodeAllows (op tag mod : Byte) : Prop := ∃ c, opClass op = some c ∧ FieldsLegal op tag mod c

theorem opcodeAllows_iff {op tag mod : Byte} {c : OpClass} (hc : opClass op = some c) :
    OpcodeAllows op tag mod ↔ FieldsLegal op tag mod c := by
  simp [OpcodeAllows, hc]

/-- The bits of MOD that `legal` reads off the whole word. -/
theorem modField_bits (w : Word) :
    (modField w).extractLsb' 2 6 = w.extractLsb' 18 6 ∧ (modField w)[1] = w[17] ∧ (modField w)[0] = w[16] := by
  refine ⟨?_, ?_, ?_⟩
  · unfold modField
    ext k hk
    grind
  · simp [modField]
  · simp [modField]

/-- `legal` is RSV = 0 and R66's condition on the other fields. -/
theorem legal_iff (w : Word) :
    legal w = true ↔ rsvField w = 0 ∧ OpcodeAllows (opField w) (tagField w) (modField w) := by
  obtain ⟨hrest, hprec, hraw⟩ := modField_bits w
  cases hc : opClass (opField w) with
  | none =>
    have hc' := hc
    unfold opField at hc'
    simp [legal, OpcodeAllows, hc, hc']
  | some c =>
    rw [opcodeAllows_iff hc]
    unfold opField at hc
    cases c with
    | length | control | framing => simp [legal, hc, FieldsLegal, rsvField, tagField, modField]
    | valueCodec =>
      simp only [FieldsLegal, hrest, hprec, hraw]
      simp [legal, hc, rsvField, tagField, opField, or_assoc, and_assoc, imp_iff_not_or]

/-- RAW = 1 goes with TAG = 0 in every class (30_encoding.md R66). -/
theorem tag_of_raw {op tag mod : Byte} (h : OpcodeAllows op tag mod) (hraw : mod[0] = true) : tag = 0 := by
  obtain ⟨c, -, hc⟩ := h
  cases c with
  | length | control => exact hc.1
  | framing =>
    obtain rfl : mod = 0 := hc
    exact absurd hraw (by decide)
  | valueCodec =>
    obtain ⟨-, -, htag⟩ := hc
    exact htag hraw

/-! Each of the decoder's four forms accepts what R66 asks of its class. -/

theorem decodePlain_accepts_iff {op tag mod : Byte} {i : Instr}
    (hc : opClass op = some .length ∨ opClass op = some .control) :
    (∃ j, decodePlain tag mod i = .ok j) ↔ OpcodeAllows op tag mod := by
  have hfields : OpcodeAllows op tag mod ↔ tag = 0 ∧ mod = 0 := by
    rcases hc with hc | hc <;> exact opcodeAllows_iff hc
  rw [hfields]
  unfold decodePlain
  split_ifs <;> simp_all

theorem decodeFraming_accepts_iff {op tag mod : Byte} {mk : Byte → Instr} (hc : opClass op = some .framing) :
    (∃ j, decodeFraming tag mod mk = .ok j) ↔ OpcodeAllows op tag mod := by
  rw [opcodeAllows_iff hc, FieldsLegal]
  unfold decodeFraming
  split_ifs <;> simp_all

/-- MOD has nothing above RAW exactly when it has nothing above PREC and PREC is 0. -/
theorem mod_above_raw_iff (m : Byte) : m.extractLsb' 1 7 = 0 ↔ m.extractLsb' 2 6 = 0 ∧ m[1] = false := by
  revert m
  decide

theorem decodeCodec_accepts_iff {op tag mod : Byte} {mk : Bool → Byte → Instr}
    (hc : opClass op = some .valueCodec) (hop : ¬ (op = 0x16#8 ∨ op = 0x17#8)) :
    (∃ j, decodeCodec tag mod mk = .ok j) ↔ OpcodeAllows op tag mod := by
  have hfields : OpcodeAllows op tag mod ↔ mod.extractLsb' 1 7 = 0 ∧ (mod[0] = true → tag = 0) := by
    rw [opcodeAllows_iff hc, mod_above_raw_iff]
    simp [FieldsLegal, hop, and_assoc]
  rw [hfields]
  unfold decodeCodec
  split_ifs <;> simp_all

theorem decodeFloat_accepts_iff {op tag mod : Byte} {mk : Prec → Bool → Byte → Instr}
    (hc : opClass op = some .valueCodec) (hop : op = 0x16#8 ∨ op = 0x17#8) :
    (∃ j, decodeFloat tag mod mk = .ok j) ↔ OpcodeAllows op tag mod := by
  have hfields : OpcodeAllows op tag mod ↔ mod.extractLsb' 2 6 = 0 ∧ (mod[0] = true → tag = 0) := by
    rw [opcodeAllows_iff hc]
    simp [FieldsLegal, hop]
  rw [hfields]
  unfold decodeFloat
  split_ifs <;> simp_all

/-- The opcodes that have a class are the rows of the opcode map (30_encoding.md R65, R68). -/
theorem opClass_eq_none {op : Byte}
    (h : op ∉ [0x01#8, 0x02#8, 0x03#8, 0x04#8, 0x05#8, 0x10#8, 0x11#8, 0x12#8, 0x13#8, 0x14#8, 0x15#8, 0x16#8, 0x17#8,
      0x20#8, 0x21#8, 0x22#8, 0x23#8, 0x30#8, 0x31#8, 0x32#8]) : opClass op = none := by
  simp only [List.mem_cons, List.not_mem_nil, or_false, not_or] at h
  unfold opClass
  split_ifs <;> bv_omega

/-- The opcode map accepts exactly the fields R66 allows, one row after the other (30_encoding.md R65). -/
theorem decodeFields_accepts_iff (op tag mod : Byte) :
    (∃ i, decodeFields op tag mod = .ok i) ↔ OpcodeAllows op tag mod := by
  unfold decodeFields
  split
  case h_21 =>
    have hnone : opClass op = none := opClass_eq_none (by simp_all)
    simp [OpcodeAllows, hnone]
  case h_1 | h_2 | h_18 | h_19 | h_20 => exact decodePlain_accepts_iff (by decide)
  case h_3 | h_4 | h_5 => exact decodeFraming_accepts_iff (by decide)
  case h_12 | h_13 => exact decodeFloat_accepts_iff (by decide) (by decide)
  all_goals exact decodeCodec_accepts_iff (by decide) (by decide)

/-- A word decodes exactly when it is legal (30_encoding.md R66). -/
theorem decode_accepts_iff (w : Word) : (∃ i, decode w = .ok i) ↔ legal w = true := by
  rw [legal_iff, ← decodeFields_accepts_iff, decode]
  split_ifs with hrsv <;> simp_all

/-! Well-formed commands. -/

theorem rawTagOk_iff {raw : Bool} {tag : Byte} : rawTagOk raw tag = true ↔ (raw = true → tag = 0) := by
  simp [rawTagOk, imp_iff_not_or]

/-- `Instr.wf` is the last condition of R66, read off the command's own fields. -/
theorem wf_iff (i : Instr) : i.wf = true ↔ (i.rawBit = true → i.tagByte = 0) := by
  cases i with
  | lenenc | lendec | clrout | clrst | movoi | tlvenc | tlvdec | wrap => simp [Instr.wf, Instr.rawBit]
  | _ => exact rawTagOk_iff

/-- RAW is bit 0 of MOD (30_encoding.md R63). -/
theorem modBits_raw (prec raw : Bool) : (modBits prec raw)[0] = raw := by
  revert prec raw
  decide

/-- Only well-formed commands are decoded (30_encoding.md R66). -/
theorem wf_of_decode {w : Word} {i : Instr} (h : decode w = .ok i) : i.wf = true := by
  obtain ⟨-, -, htag, hmod⟩ := decode_ok h
  obtain ⟨-, hallowed⟩ := (legal_iff w).1 ((decode_accepts_iff w).1 ⟨i, h⟩)
  rw [← htag, ← hmod] at hallowed
  exact (wf_iff i).2 fun hraw => tag_of_raw hallowed ((modBits_raw i.precBit i.rawBit).trans hraw)

/-! The decoder on the encoder's words. -/

/-- The fields of four bytes put together to a word are these bytes (30_encoding.md R60). -/
theorem fields_of_word (rsv mod tag op : Byte) :
    rsvField (rsv ++ mod ++ tag ++ op) = rsv ∧ modField (rsv ++ mod ++ tag ++ op) = mod ∧
    tagField (rsv ++ mod ++ tag ++ op) = tag ∧ opField (rsv ++ mod ++ tag ++ op) = op := by
  unfold rsvField modField tagField opField
  refine ⟨?_, ?_, ?_, ?_⟩ <;>
  · ext k hk
    grind

/-- The decoder looks an encoded command up by the command's own fields. -/
theorem decode_encode_eq (i : Instr) : decode (encode i) = decodeFields i.opcode i.tagByte i.modByte := by
  obtain ⟨hrsv, hmod, htag, hop⟩ := fields_of_word 0 i.modByte i.tagByte i.opcode
  unfold decode encode
  rw [if_neg (not_not.2 hrsv), hop, htag, hmod]

theorem decodeFraming_modBits (tag : Byte) (mk : Byte → Instr) :
    decodeFraming tag (modBits false false) mk = .ok (mk tag) := if_neg (by decide)

theorem decodeCodec_modBits {raw : Bool} {tag : Byte} (h : rawTagOk raw tag = true) (mk : Bool → Byte → Instr) :
    decodeCodec tag (modBits false raw) mk = .ok (mk raw tag) := by
  have hmod : (modBits false raw).extractLsb' 1 7 = 0 := by cases raw <;> decide
  simp only [decodeCodec, hmod, modBits_raw, ne_eq, not_true, if_false]
  exact if_neg fun ⟨hraw, htag⟩ => htag (rawTagOk_iff.1 h hraw)

theorem decodeFloat_modBits {raw : Bool} {tag : Byte} (h : rawTagOk raw tag = true) (prec : Prec)
    (mk : Prec → Bool → Byte → Instr) :
    decodeFloat tag (modBits prec.bit raw) mk = .ok (mk prec raw tag) := by
  have hmod : (modBits prec.bit raw).extractLsb' 2 6 = 0 := by cases prec <;> cases raw <;> decide
  have hprec : (if (modBits prec.bit raw)[1] then Prec.double else Prec.single) = prec := by
    cases prec <;> cases raw <;> rfl
  simp only [decodeFloat, hmod, hprec, modBits_raw, ne_eq, not_true, if_false]
  exact if_neg fun ⟨hraw, htag⟩ => htag (rawTagOk_iff.1 h hraw)

/-- Looking a well-formed command up by its own fields finds it (30_encoding.md R65). -/
theorem decodeFields_of_wf {i : Instr} (h : i.wf = true) :
    decodeFields i.opcode i.tagByte i.modByte = .ok i := by
  cases i with
  | lenenc | lendec | clrout | clrst | movoi => rfl
  | tlvenc tag | tlvdec tag | wrap tag => exact decodeFraming_modBits tag _
  | fltenc prec raw tag => exact decodeFloat_modBits h prec .fltenc
  | fltdec prec raw tag => exact decodeFloat_modBits h prec .fltdec
  | boolenc raw tag | booldec raw tag | sintenc raw tag | sintdec raw tag | uintenc raw tag | uintdec raw tag
  | qualenc raw tag | qualdec raw tag | tsenc raw tag | tsdec raw tag => exact decodeCodec_modBits h _

end Sys2Proof
end

section
/-! PROOFS. The statements about the encoding (30_encoding.md). -/

namespace Sys2Proof.Machine

open Sys2Proof.Safety

/-! A CMD write of an illegal word. -/

/-- An illegal word ends in ILLEGAL_COMMAND (30_encoding.md R67). -/
theorem runCommand_of_illegal {w : Word} (h : legal w = false) (s : State) :
    runCommand w s = .next (s.raiseError (opField w) .illegalCommand) := by
  unfold runCommand
  cases hd : decode w with
  | ok i => exact absurd ((decode_accepts_iff w).1 ⟨i, hd⟩) (by simp [h])
  | error e => rfl

/-- LASTOP of a CMD write is the low byte of the access (10_state.md R21). -/
theorem opField_setWidth (v : DWord) : opField (v.setWidth 32) = v.setWidth 8 := by
  unfold opField
  ext k hk
  grind

/-! The statements. -/

/-- Settles O1: the encoder's word has the command's fields, and a well-formed command is found by its fields. -/
theorem decodeOfEncodeIsIdentity : Obligations.DecodeOfEncodeIsIdentity :=
  fun i hwf => (decode_encode_eq i).trans (decodeFields_of_wf hwf)

/-- Settles O2: the fields of a word are those of its command, and R66 asks of them what `Instr.wf` asks. -/
theorem encodeOfDecodeIsIdentity : Obligations.EncodeOfDecodeIsIdentity :=
  fun _ _ h => ⟨encode_of_decode h, wf_of_decode h⟩

/-- Settles O3: `legal` and the decoder ask the same of the fields, class by class. -/
theorem decoderAcceptsExactlyLegalWords : Obligations.DecoderAcceptsExactlyLegalWords := decode_accepts_iff

/-- Settles O6: the port hands the word to `runCommand`, and LASTOP is the low byte of what was written. -/
theorem illegalWordWritesStatusOnly : Obligations.IllegalWordWritesStatusOnly := by
  refine ⟨fun s v rest hp hillegal => ?_, by decide⟩
  calc step s = runCommand (v.setWidth 32) (s.accepted rest) := step_cons s hp
    _ = .next ((s.accepted rest).raiseError (opField (v.setWidth 32)) .illegalCommand) :=
      runCommand_of_illegal hillegal _
    _ = .next (errored (taken s rest) (v.setWidth 8) 0x50) := by rw [opField_setWidth]; rfl

/-- Settles O4: seven words, each decoded. -/
theorem sampleWordsDecode : Obligations.SampleWordsDecode := by
  unfold Obligations.SampleWordsDecode
  decide

end Sys2Proof.Machine
end

section
/-! PROOFS. The length field and the frame (40_tlv_engine.md R80 to R83): what `berlen`, `parselen`, `frame` and
`unframe` come to on byte sequences written out. -/

namespace Sys2Proof.Machine

open Sys2Proof.Safety

/-! Bytes put together. -/

/-- A byte put below a number multiplies it by 256. -/
theorem toNat_append_byte {n : Nat} (x : BitVec n) (b : Byte) : (x ++ b).toNat = x.toNat * 256 + b.toNat := by
  rw [BitVec.toNat_append, ← Nat.shiftLeft_add_eq_or_of_lt b.isLt, Nat.shiftLeft_eq]

theorem ube_pair (b1 b0 : Byte) : ube [b1, b0] = (b1 ++ b0).toNat := by
  simp [ube, toNat_append_byte]

theorem ube_quad (b3 b2 b1 b0 : Byte) : ube [b3, b2, b1, b0] = (b3 ++ b2 ++ b1 ++ b0).toNat := by
  simp only [ube, toNat_append_byte, List.length_cons, List.length_nil]
  omega

/-! The forms of a length field (40_tlv_engine.md R81). -/

/-- The first bytes of the long forms, with 1, 2 and 4 bytes after them. -/
def longForms : List Byte := [0x81#8, 0x82#8, 0x84#8]

theorem mem_longForms_iff (c : Byte) :
    c ∈ longForms ↔ c.toNat = 129 ∨ c.toNat = 130 ∨ c.toNat = 132 := by
  simp [longForms, ← BitVec.toNat_inj]

/-- A length field is one byte up to 127, or a long form's first byte and as many bytes as that says. -/
theorem lengthField_cons_iff (c : Byte) (r : List Byte) (n : Nat) :
    LengthField (c :: r) n ↔
      (c.toNat ≤ 127 ∧ r = [] ∧ n = c.toNat) ∨ (c ∈ longForms ∧ r.length = c.toNat - 128 ∧ n = ube r) := by
  rw [mem_longForms_iff]
  match r with
  | [] => simp only [LengthField, List.length_nil, true_and]; omega
  | [b] => simp [LengthField, ube, ← BitVec.toNat_inj]; omega
  | [b1, b0] => simp [LengthField, ube_pair, ← BitVec.toNat_inj]; omega
  | [_, _, _] => simp [LengthField]; omega
  | [b3, b2, b1, b0] => simp [LengthField, ube_quad, ← BitVec.toNat_inj]; omega
  | _ :: _ :: _ :: _ :: _ :: r => simp [LengthField]; omega

/-- A length field has a first byte. -/
theorem not_lengthField_nil (n : Nat) : ¬ LengthField [] n := id

/-! The shortest length field (40_tlv_engine.md R80). -/

/-- The shortest length bytes are a length field of the same value. -/
theorem lengthField_shortestLength {n : Nat} (h : n ≤ 2 ^ 32 - 1) : LengthField (shortestLength n) n := by
  unfold shortestLength
  split_ifs <;> simp [LengthField, toNat_append_byte] <;> omega

/-- There are 1, 2, 3 or 5 of them. -/
theorem shortestLength_length_mem (n : Nat) : (shortestLength n).length ∈ [1, 2, 3, 5] := by
  unfold shortestLength
  split_ifs <;> simp

/-- `berlen` makes the shortest length bytes. -/
theorem berlen_eq {n : Nat} (h : n ≤ 2 ^ 32 - 1) : berlen n = .ok (shortestLength n) := by
  have hrange : ¬ ((n : Int) < 0 ∨ (n : Int) > 2 ^ 32 - 1) := by omega
  unfold berlen shortestLength
  rw [if_neg hrange]
  simp only [Nat.cast_le_ofNat, Int.toNat_natCast, be, Nat.shiftRight_eq_div_pow, apply_ite Except.ok]
  norm_num

/-- A length below 0 or above 2^32 - 1 has no length bytes (40_tlv_engine.md R80). -/
theorem berlen_of_out_of_range {l : Int} (h : l < 0 ∨ 4294967295 < l) : berlen l = .error .rangeLength :=
  if_pos h

/-- A value that a buffer can hold frames to TAG, its shortest length bytes and itself. -/
theorem frame_eq (tag : Byte) {v : List Byte} (h : v.length ≤ 2 ^ 32 - 1) :
    frame tag v = .ok (tag :: (shortestLength v.length ++ v)) := by
  simp [frame, berlen_eq h, pure, Except.pure]

/-! What `parselen` reads (40_tlv_engine.md R81). -/

/-- Parsing a byte further on in a sequence that is a byte longer. -/
theorem parselen_cons (t : Byte) (s : List Byte) (p : Nat) :
    parselen (t :: s) (p + 1) = (parselen s p).map fun x => (x.1, x.2 + 1) := by
  have hlen (k : Nat) : (t :: s).length < p + 1 + 1 + k ↔ s.length < p + 1 + k := by
    rw [List.length_cons]
    omega
  unfold parselen
  rw [List.getElem?_cons_succ]
  cases s[p]? with
  | none => rfl
  | some b =>
    simp only [hlen, List.drop_succ_cons]
    split_ifs
    · rfl
    · rfl
    · rfl
    · rw [Nat.add_right_comm (p + 1) 1]
      rfl

@[simp] theorem parselen_nil : parselen [] 0 = .error .truncated := rfl

/-- Seven bits of a byte from 128 up. -/
theorem lowBits_toNat {c : Byte} (h : 0x80 ≤ c.toNat) : (c.extractLsb' 0 7).toNat = c.toNat - 128 := by
  have := c.isLt
  simp only [BitVec.extractLsb'_toNat, Nat.shiftRight_zero]
  omega

/-- The short form: one byte up to 127 is the length. -/
theorem parselen_short {c : Byte} (h : c.toNat ≤ 127) (r : List Byte) : parselen (c :: r) 0 = .ok (c.toNat, 1) := by
  simp [parselen, h]

/-- A first byte from 128 up: the long forms, checked before the bytes that follow are counted. -/
theorem parselen_of_high {c : Byte} (h : 0x80 ≤ c.toNat) (r : List Byte) :
    parselen (c :: r) 0 =
      if c ∉ longForms then .error .malformedLength
      else if r.length < c.toNat - 128 then .error .truncated
      else .ok (ube (r.take (c.toNat - 128)), c.toNat - 128 + 1) := by
  have hform : (c.toNat - 128 ≠ 1 ∧ c.toNat - 128 ≠ 2 ∧ c.toNat - 128 ≠ 4) ↔ c ∉ longForms := by
    rw [mem_longForms_iff]
    omega
  have hlen : (c :: r).length < c.toNat - 128 + 1 ↔ r.length < c.toNat - 128 := by
    rw [List.length_cons, Nat.add_lt_add_iff_right]
  have hshort : ¬ c.toNat ≤ 0x7F := by omega
  simp only [parselen, List.getElem?_cons_zero, lowBits_toNat h, hform, hlen, if_neg hshort, List.drop_succ_cons,
    List.drop_zero, Nat.zero_add, Nat.add_comm 1]

/-- A first byte from 128 up that starts no long form. -/
theorem parselen_malformed {c : Byte} (h : 0x80 ≤ c.toNat) (hc : c ∉ longForms) (r : List Byte) :
    parselen (c :: r) 0 = .error .malformedLength := by
  rw [parselen_of_high h, if_pos hc]

theorem high_of_mem_longForms {c : Byte} (hc : c ∈ longForms) : 0x80 ≤ c.toNat := by
  rw [mem_longForms_iff] at hc
  omega

/-- A long form with too few bytes after its first. -/
theorem parselen_cut {c : Byte} (hc : c ∈ longForms) {r : List Byte} (h : r.length < c.toNat - 128) :
    parselen (c :: r) 0 = .error .truncated := by
  rw [parselen_of_high (high_of_mem_longForms hc), if_neg (not_not.2 hc), if_pos h]

/-- A length field parses to its value, whatever follows it. -/
theorem parselen_lengthField {lb : List Byte} {n : Nat} (h : LengthField lb n) (r : List Byte) :
    parselen (lb ++ r) 0 = .ok (n, lb.length) := by
  match lb with
  | [] => exact absurd h (not_lengthField_nil n)
  | c :: bs =>
    rcases (lengthField_cons_iff c bs n).1 h with ⟨hc, rfl, rfl⟩ | ⟨hc, hbs, rfl⟩
    · rw [List.singleton_append, List.length_singleton, parselen_short hc]
    · have hlen : ¬ (bs ++ r).length < bs.length := by simp
      rw [List.cons_append, parselen_of_high (high_of_mem_longForms hc), if_neg (not_not.2 hc), ← hbs, if_neg hlen,
        List.take_left, List.length_cons]

/-- What parses starts with a length field of that value. -/
theorem lengthField_of_parselen {s : List Byte} {n q : Nat} (h : parselen s 0 = .ok (n, q)) :
    ∃ lb r, s = lb ++ r ∧ LengthField lb n ∧ q = lb.length := by
  match s with
  | [] => cases h
  | c :: r =>
    rcases Nat.lt_or_ge c.toNat 0x80 with hlow | hhigh
    · rw [parselen_short (by omega)] at h
      cases h
      exact ⟨[c], r, rfl, (lengthField_cons_iff c [] _).2 (.inl ⟨by omega, rfl, rfl⟩), rfl⟩
    · rw [parselen_of_high hhigh] at h
      split_ifs at h with hc hlen
      simp only [Except.ok.injEq, Prod.mk.injEq] at h
      obtain ⟨rfl, rfl⟩ := h
      have htake : (r.take (c.toNat - 128)).length = c.toNat - 128 := List.length_take_of_le (Nat.not_lt.1 hlen)
      refine ⟨c :: r.take (c.toNat - 128), r.drop (c.toNat - 128), ?_, ?_, by rw [List.length_cons, htake]⟩
      · rw [List.cons_append, List.take_append_drop]
      · rw [lengthField_cons_iff]
        exact .inr ⟨hc, htake, rfl⟩

/-! What `unframe` accepts (40_tlv_engine.md R83). -/

/-- Another tag is refused before anything else is read. -/
theorem unframe_wrongTag {b tag : Byte} (h : b ≠ tag) (r : List Byte) :
    unframe (b :: r) tag = .error .wrongTag := if_pos h

/-- After the tag, what the length field's parse gives is compared with what is left. -/
theorem unframe_tag (tag : Byte) (r : List Byte) :
    unframe (tag :: r) tag = parselen r 0 >>= fun x =>
      if r.length - x.2 < x.1 then .error .incomplete
      else if x.1 < r.length - x.2 then .error .extraTrailing
      else .ok (r.drop x.2) := by
  simp only [unframe, List.getElem?_cons_zero, ne_eq, not_true, if_false, parselen_cons]
  cases parselen r 0 with
  | error e => rfl
  | ok x => simp [Except.map, pure, Except.pure]

theorem unframe_tag_error {r : List Byte} {e : ErrorCode} (h : parselen r 0 = .error e) (tag : Byte) :
    unframe (tag :: r) tag = .error e := by
  rw [unframe_tag, h, except_error_bind]

/-- The tag, a length field of value `n`, and the bytes `r`: one TLV if `r` is `n` bytes long. -/
theorem unframe_lengthField (tag : Byte) {lb : List Byte} {n : Nat} (h : LengthField lb n) (r : List Byte) :
    unframe (tag :: (lb ++ r)) tag =
      if r.length < n then .error .incomplete
      else if n < r.length then .error .extraTrailing
      else .ok r := by
  have hrest : (lb ++ r).length - lb.length = r.length := by simp
  rw [unframe_tag, parselen_lengthField h, except_ok_bind, hrest, List.drop_left]

/-- `unframe` gives the value of one TLV, and accepts nothing else. -/
theorem unframe_eq_ok_iff {bs v : List Byte} {tag : Byte} : unframe bs tag = .ok v ↔ IsTlv tag v bs := by
  constructor
  · intro h
    match bs with
    | [] => cases h
    | b :: r =>
      obtain ⟨htag, -⟩ := unframe_ok h
      obtain rfl : b = tag := by simpa using htag
      obtain ⟨⟨n, q⟩, hparse, -⟩ := except_bind_ok ((unframe_tag b r).symm.trans h)
      obtain ⟨lb, r', rfl, hlb, rfl⟩ := lengthField_of_parselen hparse
      rw [unframe_lengthField b hlb] at h
      split_ifs at h with hshort hlong
      cases h
      obtain rfl : n = v.length := by omega
      exact ⟨lb, hlb, rfl⟩
  · rintro ⟨lb, hlb, rfl⟩
    rw [unframe_lengthField tag hlb, if_neg (lt_irrefl _), if_neg (lt_irrefl _)]

/-- What is wrong with a sequence is the error `unframe` ends in. -/
theorem unframe_of_framingFault {tag code : Byte} {bs : List Byte} (h : FramingFault tag bs code) :
    ∃ e, unframe bs tag = .error e ∧ e.code = code := by
  rcases h with ⟨rfl, rfl⟩ | ⟨b, r, rfl, hb, rfl⟩ | ⟨rfl, rfl⟩ | ⟨c, r, rfl, hhigh, hc, rfl⟩ |
    ⟨c, r, rfl, hc, hlen, rfl⟩ | ⟨lb, r, n, rfl, hlb, hlen, rfl⟩ | ⟨lb, r, n, rfl, hlb, hlen, rfl⟩
  · exact ⟨.truncated, rfl, rfl⟩
  · exact ⟨.wrongTag, unframe_wrongTag hb r, rfl⟩
  · exact ⟨.truncated, unframe_tag_error parselen_nil tag, rfl⟩
  · exact ⟨.malformedLength, unframe_tag_error (parselen_malformed hhigh hc r) tag, rfl⟩
  · exact ⟨.truncated, unframe_tag_error (parselen_cut hc hlen) tag, rfl⟩
  · exact ⟨.incomplete, by rw [unframe_lengthField tag hlb, if_pos hlen], rfl⟩
  · exact ⟨.extraTrailing, by rw [unframe_lengthField tag hlb, if_neg hlen.not_gt, if_pos hlen], rfl⟩

end Sys2Proof.Machine
end

section
/-! PROOFS. The buffers as byte sequences, and how the commands end. -/

namespace Sys2Proof.Machine

open Sys2Proof.Safety

/-! What the buffers hold. -/

/-- `InHolds` names the sequence a command reads from IN. -/
theorem inBytes_of_inHolds {s : State} {bs : List Byte} (h : InHolds s bs) : s.inBytes = bs := by
  obtain ⟨hlen, hbytes⟩ := h
  exact List.ext_getElem (by rw [inBytes_length, hlen]) fun k h1 h2 => by rw [inBytes_getElem, hbytes k h2]

/-- `OutHolds` names the sequence a command reads from OUT. -/
theorem outBytes_of_outHolds {s : State} {bs : List Byte} (h : OutHolds s bs) : s.outBytes = bs := by
  obtain ⟨hlen, hbytes⟩ := h
  exact List.ext_getElem (by rw [outBytes_length, hlen]) fun k h1 h2 => by rw [outBytes_getElem, hbytes k h2]

/-- The bytes of a write to OUT read back. -/
theorem outByte_written (s : State) (m : Memory) (a : Nat) (bs : List Byte) {k : Nat} (h : k < bs.length) :
    ({ s with output := m.write a bs } : State).outByte (a + k) = bs[k] := by
  have hin : a ≤ a + k ∧ a + k < a + bs.length := by omega
  rw [outByte_write { s with output := m }, if_pos hin, Nat.add_sub_cancel_left, List.getD_eq_getElem _ _ h]

/-- A write to OUT leaves every byte outside it. -/
theorem outByte_of_not_written (s : State) {a : Nat} {bs : List Byte} {k : Nat} (h : k < a ∨ a + bs.length ≤ k) :
    ({ s with output := s.output.write a bs } : State).outByte k = s.outByte k := by
  rw [outByte_write, if_neg (by omega)]

/-- OUT written anew from index 0 holds what was written. -/
theorem outHolds_rewrite {t : State} {m : Memory} {bs : List Byte} (h : bs.length < 2 ^ 32)
    (hout : t.output = m.write 0 bs) (hlen : t.outLen = BitVec.ofNat 32 bs.length) : OutHolds t bs := by
  refine ⟨by rw [hlen, BitVec.toNat_ofNat, Nat.mod_eq_of_lt h], fun k hk => ?_⟩
  have hread := outByte_written t m 0 bs hk
  rw [← hout, Nat.zero_add] at hread
  exact hread

/-! How a command ends. -/

/-- A command whose results leave STATUS, the parameters and the port. -/
theorem ends_complete {s s' : State} (op : Byte) (hstatus : s'.status = s.status) (hparams : s'.params = s.params)
    (hpending : s'.pending = s.pending) (hreply : s'.reply = s.reply) : Ends s (s'.complete op) op where
  status := by rw [complete_status, hstatus]
  params := hparams
  pending := hpending
  reply := hreply

/-- A command whose first step raises ends in that error, whatever would have followed. -/
theorem commit_bind_error {α : Type} {x : Except ErrorCode α} {e : ErrorCode} (h : x = .error e) (s : State) (op : Byte)
    (f : α → Except ErrorCode State) : s.commit op (x >>= f) = .next (errored s op e.code) := by
  rw [h]
  rfl

/-- A command whose first step answers goes on from what it gives. -/
theorem commit_bind_ok {α : Type} {x : Except ErrorCode α} {a : α} (h : x = .ok a) (s : State) (op : Byte)
    (f : α → Except ErrorCode State) : s.commit op (x >>= f) = s.commit op (f a) := by
  rw [h]
  rfl

/-- A command that comes to an append emits its bytes where they fit, and else ends in CAPACITY. -/
theorem emitsBytes_of_append {i : Instr} {op : Byte} {s : State} {bs : List Byte}
    (h : exec i s = s.commit op (s.append bs)) : EmitsBytes i op s bs := by
  refine ⟨fun hfits => ?_, fun hfull => by rw [h, append_of_full hfull]; rfl⟩
  rw [h, append_of_fits hfits]
  refine ⟨_, rfl, ⟨ends_complete op rfl rfl rfl rfl, rfl, rfl, ⟨rfl, fun _ => rfl⟩, ?_, ?_, ?_⟩⟩
  · exact toNat_ofNat_of_le_cap hfits
  · exact fun k hk => outByte_written s s.output s.outLen.toNat bs hk
  · exact fun a ha => outByte_of_not_written s ha

/-- Writing OPA alone is what the commands that set it to `o` do. -/
theorem setOperands_setOpa (s : State) (op : Byte) (o : Operand) :
    SetOperands s ((s.setOpa o).complete op) op o s.opb where
  ends := ends_complete op rfl rfl rfl rfl
  opa := rfl
  opb := rfl
  input := ⟨rfl, fun _ => rfl⟩
  output := ⟨rfl, fun _ => rfl⟩

/-! Operands of the right kind. -/

theorem readInt_of_int {o : Operand} (h : o.kind = Kind.int) : o.readInt = .ok o.val.toInt := if_pos h

theorem readQuality_of_quality {o : Operand} (h : o.kind = Kind.quality) : o.readQuality = .ok o.val := if_pos h

/-- A natural number as an INT operand. -/
theorem ofInt_natCast (n : Nat) : Operand.ofInt n = { kind := 2, val := BitVec.ofNat 64 n } := by
  rw [Operand.ofInt, BitVec.ofInt_natCast]

end Sys2Proof.Machine
end

section
/-! PROOFS. The statements about the TLV engine (40_tlv_engine.md). -/

namespace Sys2Proof.Machine

open Sys2Proof.Safety

/-! LENDEC on an IN written out (40_tlv_engine.md R85). -/

/-- LENDEC ends in the error its parse ends in. -/
theorem lendec_of_parselen_error {s : State} {bs : List Byte} (hin : InHolds s bs) {e : ErrorCode}
    (h : parselen bs 0 = .error e) : exec .lendec s = .next (errored s 0x02 e.code) :=
  commit_bind_error (inBytes_of_inHolds hin ▸ h) s 0x02 _

/-- LENDEC on a length field and the bytes `r` after it: `r` must be empty. -/
theorem lendec_of_lengthField {s : State} {lb r : List Byte} {n : Nat} (hin : InHolds s (lb ++ r))
    (h : LengthField lb n) :
    exec .lendec s = s.commit 0x02 (if r = [] then .ok (s.setOpa (.ofInt n)) else .error .extraTrailing) := by
  have hbytes := inBytes_of_inHolds hin
  have hparse : parselen s.inBytes 0 = .ok (n, lb.length) := by rw [hbytes, parselen_lengthField h]
  refine (commit_bind_ok hparse s 0x02 _).trans (congrArg _ ?_)
  dsimp only
  rw [hbytes]
  cases r with
  | nil => rw [List.append_nil, if_neg (lt_irrefl _), if_pos rfl]; rfl
  | cons b r => rw [if_pos (by simp), if_neg (by simp)]

/-! WRAP from the frame it makes (40_tlv_engine.md R88). -/

/-- WRAP of a frame `t` of OUT's contents: `t` is compared with BUF_CAP, then written over OUT from index 0. -/
theorem wrap_of_frame {s : State} {tag : Byte} {t : List Byte} (h : frame tag s.outBytes = .ok t) :
    exec (.wrap tag) s = s.commit 0x05
      (if s.cap < t.length then .error .capacity
       else .ok { s with output := s.output.write 0 t, outLen := BitVec.ofNat 32 t.length }) :=
  commit_bind_ok h s 0x05 _

/-! The statements. -/

/-- Settles O26: `unframe` by its tag and its length field. -/
theorem unframeAcceptsExactlyOneTlv : Obligations.UnframeAcceptsExactlyOneTlv := fun _ _ _ => unframe_eq_ok_iff

/-- Settles O25: a frame is one TLV, its length field being the shortest. -/
theorem unframeInvertsFrame : Obligations.UnframeInvertsFrame := by
  refine ⟨fun bs v tag h => ?_, fun tag v h => ⟨_, frame_eq tag h, ?_⟩⟩
  · obtain ⟨-, q, hparse, -⟩ := unframe_ok h
    exact ⟨q, hparse⟩
  · exact unframe_eq_ok_iff.2 ⟨_, lengthField_shortestLength h, rfl⟩

/-- Settles O27: the shortest length bytes are a length field of the length. -/
theorem lengthBytesParseBack : Obligations.LengthBytesParseBack := by
  refine fun n h => ⟨_, berlen_eq h, shortestLength_length_mem n, ?_⟩
  have hparse := parselen_lengthField (lengthField_shortestLength h) []
  rwa [List.append_nil] at hparse

/-- Settles O28: LENENC comes to an append of the shortest length bytes. -/
theorem lenencAppendsLength : Obligations.LenencAppendsLength := by
  intro s n hkind hval h
  have hread : s.opa.readInt = .ok (n : Int) := by rw [readInt_of_int hkind, hval]
  exact emitsBytes_of_append ((commit_bind_ok hread s 0x01 _).trans (commit_bind_ok (berlen_eq h) s 0x01 _))

/-- Settles O29: nothing follows the length field. -/
theorem lendecReadsLength : Obligations.LendecReadsLength := by
  intro s lb n hin hlb
  have hexec := lendec_of_lengthField (r := []) (by rwa [List.append_nil]) hlb
  rw [if_pos rfl, ofInt_natCast] at hexec
  exact ⟨_, hexec, setOperands_setOpa s 0x02 _⟩

/-- Settles O30: the first three by the parse of the length field, the last by what follows it. -/
theorem lendecRefusesOtherInput : Obligations.LendecRefusesOtherInput := by
  refine ⟨fun s hin => ?_, fun s c r hin hhigh hc => ?_, fun s c r hin hc hlen => ?_, fun s lb r n hin hlb hr => ?_⟩
  · exact lendec_of_parselen_error hin parselen_nil
  · exact lendec_of_parselen_error hin (parselen_malformed hhigh hc r)
  · exact lendec_of_parselen_error hin (parselen_cut hc hlen)
  · rw [lendec_of_lengthField hin hlb, if_neg hr]
    rfl

/-- Settles O31: TLVENC comes to an append of the framed IN. -/
theorem tlvencAppendsFramedInput : Obligations.TlvencAppendsFramedInput := by
  intro s tag v hin
  have hframe := frame_eq tag (inBytes_frameable s)
  rw [inBytes_of_inHolds hin] at hframe
  exact emitsBytes_of_append (commit_bind_ok (inBytes_of_inHolds hin ▸ hframe) s 0x03 _)

/-- Settles O32: OUT is forgotten and written anew with the value. -/
theorem tlvdecReplacesOutput : Obligations.TlvdecReplacesOutput := by
  intro s tag bs v hin htlv
  have hunframe : unframe s.inBytes tag = .ok v := by rw [inBytes_of_inHolds hin, unframe_eq_ok_iff.2 htlv]
  have hlen : v.length < 2 ^ 32 := by
    have := unframe_shorter hunframe
    have := inBytes_frameable s
    omega
  refine ⟨_, commit_bind_ok hunframe s 0x04 _, ends_complete 0x04 rfl rfl rfl rfl, ofInt_natCast v.length, rfl,
    ⟨rfl, fun _ => rfl⟩, outHolds_rewrite hlen rfl rfl, fun a ha => ?_⟩
  exact (replaceOut_lookup s v a).trans (if_neg (Nat.not_lt.2 ha))

/-- Settles O33: WRAP frames OUT's contents, then compares the frame with BUF_CAP. -/
theorem wrapFramesOutputInPlace : Obligations.WrapFramesOutputInPlace := by
  intro s tag b hout
  have hbytes := outBytes_of_outHolds hout
  have hframe : frame tag s.outBytes = .ok (tag :: (shortestLength b.length ++ b)) := by
    rw [frame_eq tag (outBytes_frameable s), hbytes]
  rw [wrap_of_frame hframe]
  generalize tag :: (shortestLength b.length ++ b) = t
  refine ⟨fun hfits => ?_, fun hfull => by rw [if_pos hfull]; rfl⟩
  rw [if_neg (Nat.not_lt.2 hfits)]
  refine ⟨_, rfl, ends_complete 0x05 rfl rfl rfl rfl, rfl, rfl, ⟨rfl, fun _ => rfl⟩, ?_, fun a ha => ?_⟩
  · exact outHolds_rewrite (lt_of_le_of_lt hfits s.params.bufCap.isLt) rfl rfl
  · exact outByte_of_not_written s (.inr (by omega))

/-- Settles O34: every framed decode takes the value portion first, by `unframe`. -/
theorem framedDecodesReportFramingFault : Obligations.FramedDecodesReportFramingFault := by
  intro s tag code bs hin hfault
  obtain ⟨e, he, rfl⟩ := unframe_of_framingFault hfault
  rw [← inBytes_of_inHolds hin] at he
  have htake : s.takeValue false tag = .error e := he
  exact ⟨commit_bind_error he s _ _, commit_bind_error htake s _ _, commit_bind_error htake s _ _,
    commit_bind_error htake s _ _, fun _ => commit_bind_error htake s _ _, commit_bind_error htake s _ _,
    commit_bind_error htake s _ _⟩

end Sys2Proof.Machine
end

section
/-! PROOFS. Operands out of range (60_exceptions.md R161). -/

namespace Sys2Proof.Machine

open Sys2Proof.Safety

/-- A negative integer has no UnsignedInteger value (41_scalar_codecs.md R108). -/
theorem uintval_of_negative {o : Operand} (hk : o.kind = Kind.int) (h : o.val.toInt < 0) :
    uintval o = .error .rangeUnsignedNegative := by
  rw [uintval, readInt_of_int hk, except_ok_bind, if_pos h]

/-- An integer above 2^32 - 1 has no UnsignedInteger value (41_scalar_codecs.md R108). -/
theorem uintval_of_tooLarge {o : Operand} (hk : o.kind = Kind.int) (h : 4294967295 < o.val.toInt) :
    uintval o = .error .rangeUnsignedTooLarge := by
  rw [uintval, readInt_of_int hk, except_ok_bind, if_neg (by omega), if_pos (by omega)]

/-- A Quality whose accuracy is 25 to 30 or above 31 has no wire byte (42_quality_timestamp.md R131). -/
theorem qualval_of_badAccuracy {o : Operand} (hk : o.kind = Kind.quality)
    (h : ¬ AccuracyOk (payloadByte o.val 1).toNat) : qualval o = .error .rangeAccuracy := by
  rw [qualval, readQuality_of_quality hk, except_ok_bind]
  exact if_neg h

/-- Settles O54: the command's first step that looks at the operand raises. -/
theorem outOfRangeOperandIsRangeError : Obligations.OutOfRangeOperandIsRangeError := by
  refine fun s raw tag => ⟨fun hk h => ?_, fun hk h => ?_, fun hk h => ?_, fun hk h => ?_⟩
  · exact (commit_bind_ok (readInt_of_int hk) s 0x01 _).trans
      (commit_bind_error (berlen_of_out_of_range h) s 0x01 _)
  · exact commit_bind_error (uintval_of_negative hk h) s 0x14 _
  · exact commit_bind_error (uintval_of_tooLarge hk h) s 0x14 _
  · exact commit_bind_error (qualval_of_badAccuracy hk h) s 0x20 _

end Sys2Proof.Machine
end

section
/-! PROOFS. How a value codec meets the engine (41_scalar_codecs.md R100): a short value portion on the wire, taken from
IN, and moved from OUT to IN. -/

namespace Sys2Proof.Machine

open Sys2Proof.Safety

/-! The value portion on the wire. -/

/-- Every value portion the encoders make has the short form of the length field. -/
theorem ShortValue.le {v : List Byte} (h : ShortValue v) : v.length ≤ 127 := le_trans h (by decide)

theorem wire_length_le (raw : Bool) (tag : Byte) (v : List Byte) : (wire raw tag v).length ≤ v.length + 2 := by
  cases raw <;> simp [wire]

/-- `wire` names the bytes `EmitValue` appends. -/
theorem emitValue_eq_append (s : State) (raw : Bool) (tag : Byte) {v : List Byte} (hv : ShortValue v) :
    s.emitValue raw tag v = s.append (wire raw tag v) := by
  cases raw with
  | true => rfl
  | false =>
    have hlen : v.length ≤ 2 ^ 32 - 1 := le_trans hv (by decide)
    simp [State.emitValue, frame_eq tag hlen, shortestLength, hv.le, wire]

/-- A framed value portion on the wire is one TLV. -/
theorem isTlv_wire (tag : Byte) {v : List Byte} (hv : ShortValue v) : IsTlv tag v (wire false tag v) := by
  have hlen := hv.le
  refine ⟨[BitVec.ofNat 8 v.length], ?_, rfl⟩
  simp [LengthField]
  omega

/-- IN that holds what an encoder put on the wire holds its value portion. -/
theorem takesValue_of_wire {s : State} {raw : Bool} {tag : Byte} {v : List Byte} (hv : ShortValue v)
    (h : InHolds s (wire raw tag v)) : TakesValue raw tag s v := by
  refine ⟨wire raw tag v, h, ?_⟩
  cases raw with
  | true => rfl
  | false => exact isTlv_wire tag hv

/-- `TakesValue` names the value portion `TakeValue` answers. -/
theorem takeValue_of_takesValue {s : State} {raw : Bool} {tag : Byte} {v : List Byte} (h : TakesValue raw tag s v) :
    s.takeValue raw tag = .ok v := by
  obtain ⟨bs, hin, hbs⟩ := h
  cases raw with
  | true =>
    obtain rfl : bs = v := hbs
    rw [takeValue_raw, inBytes_of_inHolds hin]
  | false => rw [takeValue_framed, inBytes_of_inHolds hin, unframe_eq_ok_iff.2 hbs]

/-! Encoders and decoders from the value portion. -/

/-- A command that emits a short value portion appends its wire bytes where they fit, and else ends in CAPACITY. -/
theorem emitsBytes_of_value {i : Instr} {op : Byte} {s : State} {raw : Bool} {tag : Byte}
    {x : Except ErrorCode (List Byte)} {v : List Byte} (hx : x = .ok v) (hv : ShortValue v)
    (hexec : exec i s = s.commit op (x >>= fun v => s.emitValue raw tag v)) : EmitsBytes i op s (wire raw tag v) := by
  refine emitsBytes_of_append ?_
  rw [hexec, commit_bind_ok hx, emitValue_eq_append s raw tag hv]

/-- A decoder whose value portion reads to the error `e` ends in it. -/
theorem commit_takeValue_error {s : State} {raw : Bool} {tag : Byte} {v : List Byte} {α : Type}
    {f : List Byte → Except ErrorCode α} {e : ErrorCode} (h : TakesValue raw tag s v) (hf : f v = .error e) (op : Byte)
    (k : α → Except ErrorCode State) :
    s.commit op (s.takeValue raw tag >>= fun v => f v >>= k) = .next (errored s op e.code) :=
  (commit_bind_ok (takeValue_of_takesValue h) s op _).trans (commit_bind_error hf s op k)

/-- A decoder whose value portion reads to the operand `o` writes `o` to OPA and nothing else. -/
theorem setOperands_of_value {i : Instr} {op : Byte} {s : State} {raw : Bool} {tag : Byte} {v : List Byte}
    {f : List Byte → Except ErrorCode Operand} {o : Operand} (h : TakesValue raw tag s v) (hf : f v = .ok o)
    (hexec : exec i s = s.commit op (s.takeValue raw tag >>= fun v => f v >>= fun r => pure (s.setOpa r))) :
    ∃ t, exec i s = .next t ∧ SetOperands s t op o s.opb := by
  refine ⟨_, ?_, setOperands_setOpa s op o⟩
  rw [hexec, commit_bind_ok (takeValue_of_takesValue h), commit_bind_ok hf]
  rfl

/-! Encoding, MOVOI, decoding (41_scalar_codecs.md R115). -/

/-- An append to an empty OUT is all that OUT holds. -/
theorem outHolds_of_appended {s t : State} {op : Byte} {bs : List Byte} (hempty : s.outLen = 0)
    (h : Appended s t op bs) : OutHolds t bs := by
  have hzero : s.outLen.toNat = 0 := by rw [hempty]; rfl
  refine ⟨by rw [h.outLen, hzero, Nat.zero_add], fun k hk => ?_⟩
  have hread := h.written k hk
  rwa [hzero, Nat.zero_add] at hread

/-- MOVOI hands IN what OUT held (43_buffer_control.md R152). -/
theorem movoi_inHolds {s : State} {bs : List Byte} (h : OutHolds s bs) :
    ∃ t, exec .movoi s = .next t ∧ t.params = s.params ∧ InHolds t bs := by
  obtain rfl := outBytes_of_outHolds h
  refine ⟨_, rfl, rfl, outBytes_length s, fun k hk => ?_⟩
  have hwritten : 0 ≤ k ∧ k < 0 + s.outBytes.length := by omega
  have hread := inByte_write s 0 s.outBytes k
  rw [if_pos hwritten, Nat.sub_zero, List.getD_eq_getElem _ _ hk] at hread
  exact hread

/-- BUF_CAP is at least 16 (00_scope.md R5), so that an empty OUT has room for any short value portion, framed or not. -/
theorem wire_fits {s : State} (hok : s.params.ok = true) (hempty : s.outLen = 0) (raw : Bool) (tag : Byte)
    {v : List Byte} (hv : ShortValue v) : s.outLen.toNat + (wire raw tag v).length ≤ s.cap := by
  have hzero : s.outLen.toNat = 0 := by rw [hempty]; rfl
  have hcap : 16 ≤ s.cap := by
    unfold Config.Params.ok at hok
    exact of_decide_eq_true (Bool.and_eq_true_iff.1 hok).1
  have hlen : v.length ≤ 9 := hv
  have := wire_length_le raw tag v
  omega

/-- A codec whose decoder reads the operand `o` from the encoder's value portion `v` gives `o` back. -/
theorem roundTrips_of_value {enc dec : Instr} {raw : Bool} {tag eop dop : Byte} {s : State}
    {x : Except ErrorCode (List Byte)} {v : List Byte} {o : Operand} (hok : s.params.ok = true) (hempty : s.outLen = 0)
    (hx : x = .ok v) (hv : ShortValue v)
    (henc : exec enc s = s.commit eop (x >>= fun v => s.emitValue raw tag v))
    (hdec : ∀ u : State, u.params = s.params → TakesValue raw tag u v →
      ∃ t, exec dec u = .next t ∧ SetOperands u t dop o u.opb) :
    RoundTrips enc dec s o := by
  obtain ⟨hemits, -⟩ := emitsBytes_of_value hx hv henc
  obtain ⟨s1, hs1, happended⟩ := hemits (wire_fits hok hempty raw tag hv)
  obtain ⟨s2, hs2, hparams, hin⟩ := movoi_inHolds (outHolds_of_appended hempty happended)
  obtain ⟨t, ht, hset⟩ := hdec s2 (hparams.trans happended.ends.params) (takesValue_of_wire hv hin)
  exact ⟨s1, s2, t, hs1, hs2, ht, by rw [happended.ends.status], by rw [hset.ends.status], hset.opa⟩

end Sys2Proof.Machine
end

section
/-! PROOFS. Big-endian numbers as bit vectors (00_scope.md section 4): `be` by a payload's bytes, `ube` and `sbe` by the
bit vector the bytes make. -/

namespace Sys2Proof.Machine

open Sys2Proof.Safety

/-! Writing. -/

/-- `be` of a payload is its bytes, from byte `n` down. -/
theorem be_succ_payload (v : DWord) (n : Nat) : be (n + 1) v.toNat = payloadByte v n :: be n v.toNat := rfl

/-- `be` looks at no bit above those it writes. -/
theorem be_mod {n k : Nat} (h : 8 * n ≤ k) (v : Nat) : be n (v % 2 ^ k) = be n v := by
  induction n with
  | zero => rfl
  | succ n ih =>
    have hbyte : BitVec.ofNat 8 ((v % 2 ^ k) >>> (8 * n)) = BitVec.ofNat 8 (v >>> (8 * n)) := by
      apply BitVec.eq_of_getLsbD_eq
      intro j hj
      have hlow : 8 * n + j < k := by omega
      simp [BitVec.getLsbD_ofNat, Nat.testBit_mod_two_pow, hlow]
    rw [be, be, hbyte, ih (by omega)]

/-- The low bits of a payload's signed value are its own. -/
theorem toInt_emod_two_pow {v : DWord} {k : Nat} (h : k ≤ 64) : v.toInt % 2 ^ k = (v.toNat % 2 ^ k : Nat) := by
  have hdvd : (2 : Int) ^ k ∣ (2 ^ 64 : Nat) := by exact_mod_cast pow_dvd_pow 2 h
  rw [← Int.emod_emod_of_dvd _ hdvd, BitVec.toInt_eq_toNat_bmod, Int.bmod_emod, Int.emod_emod_of_dvd _ hdvd]
  push_cast
  rfl

/-! Reading. -/

theorem ube_single (b0 : Byte) : ube [b0] = b0.toNat := by simp [ube]

theorem ube_oct (b7 b6 b5 b4 b3 b2 b1 b0 : Byte) :
    ube [b7, b6, b5, b4, b3, b2, b1, b0] = (b7 ++ b6 ++ b5 ++ b4 ++ b3 ++ b2 ++ b1 ++ b0).toNat := by
  simp only [ube, toNat_append_byte, List.length_cons, List.length_nil]
  omega

/-- `ube` undoes `be` on a number of that width. -/
theorem ube_be_of_lt {n v : Nat} (h : v < 256 ^ n) : ube (be n v) = v := by
  rw [ube_be, Nat.mod_eq_of_lt h]

/-- The first byte of a big-endian number is its top half or its bottom half. -/
theorem ube_high_iff (b : Byte) (bs : List Byte) : 0x80 ≤ b.toNat ↔ 128 * 256 ^ bs.length ≤ ube (b :: bs) := by
  have hlow := ube_lt bs
  rw [ube]
  constructor
  · intro h
    exact le_trans (Nat.mul_le_mul_right _ h) (Nat.le_add_right _ _)
  · intro h
    by_contra hb
    have : (b.toNat + 1) * 256 ^ bs.length ≤ 128 * 256 ^ bs.length := Nat.mul_le_mul_right _ (by omega)
    rw [Nat.add_one_mul] at this
    omega

/-- `sbe` is the signed value of the bit vector whose unsigned value is `ube`. -/
theorem sbe_eq_toInt {w : Nat} (x : BitVec w) {bs : List Byte} (hw : w = 8 * bs.length) (h : ube bs = x.toNat) :
    sbe bs = x.toInt := by
  subst hw
  cases bs with
  | nil => exact (BitVec.toInt_zero_length x).symm
  | cons b bs =>
    have hpow : 2 ^ (8 * (b :: bs).length) = 2 * (128 * 256 ^ bs.length) := by
      rw [pow_mul, List.length_cons, pow_succ]
      ring
    have hpow' : (2 : Int) ^ (8 * (b :: bs).length) = (2 * (128 * 256 ^ bs.length) : Nat) := mod_cast hpow
    rw [BitVec.toInt_eq_toNat_cond, ← h, sbe]
    simp only [ube_high_iff b bs, hpow, hpow']
    split_ifs <;> omega

/-- `sbe` undoes `be` on a payload whose signed value has that width. -/
theorem sbe_be {v : DWord} {n : Nat} (hn : n ≤ 8) (hlow : -2 ^ (8 * n) ≤ v.toInt * 2)
    (hhigh : v.toInt * 2 < 2 ^ (8 * n)) : sbe (be n v.toNat) = v.toInt := by
  have hube : ube (be n v.toNat) = (v.setWidth (8 * n)).toNat := by
    rw [ube_be, BitVec.toNat_setWidth, pow_mul]
    norm_num
  have hdvd : 2 ^ (8 * n) ∣ 2 ^ 64 := pow_dvd_pow 2 (by omega)
  rw [sbe_eq_toInt _ (by rw [be_length]) hube, BitVec.toInt_setWidth]
  calc (v.toNat : Int).bmod (2 ^ (8 * n))
      = (v.toInt).bmod (2 ^ (8 * n)) := by rw [BitVec.toInt_eq_toNat_bmod, Int.bmod_bmod_of_dvd hdvd]
    _ = v.toInt := Int.bmod_eq_of_le_mul_two (by push_cast; omega) (by push_cast; omega)

end Sys2Proof.Machine
end

section
/-! PROOFS. What the scalar codecs write and read (41_scalar_codecs.md R101 to R113), by value portion. -/

namespace Sys2Proof.Machine

open Sys2Proof.Safety

/-- The integer encoders' value portions are at most 8 bytes. -/
theorem shortValue_be {n : Nat} (h : n ≤ 8) (v : Nat) : ShortValue (be n v) := by
  simp only [ShortValue, be_length]
  omega

/-! Boolean (41_scalar_codecs.md R101, R103). -/

theorem boolval_of_none {o : Operand} (hk : o.kind = Kind.none) : boolval o = .ok [] := if_pos hk

theorem boolval_of_bool {o : Operand} (hk : o.kind = Kind.bool) :
    boolval o = .ok [if o.val = 0 then 0x00 else 0x0F] := by
  have hne : o.kind ≠ Kind.none := by rw [hk]; decide
  rw [boolval, if_neg hne, if_pos hk]
  by_cases hv : o.val = 0
  · rw [if_neg (not_not.2 hv), if_pos hv]
  · rw [if_pos hv, if_neg hv]

theorem boolof_byte (b : Byte) : boolof [b] = .ok { kind := 1, val := if b = 0 then 0 else 1 } := by
  by_cases hb : b = 0 <;> simp [boolof, Operand.ofBool, hb]

theorem boolof_of_long {v : List Byte} (h : 2 ≤ v.length) : boolof v = .error .badValueLength := by
  match v with
  | _ :: _ :: _ => rfl

/-! SignedInteger (41_scalar_codecs.md R105, R107). -/

theorem sintval_of_int {o : Operand} (hk : o.kind = Kind.int) :
    sintval o = .ok (be (swidth o.val.toInt) o.val.toNat) := by
  have hw : 8 * swidth o.val.toInt ≤ 64 := Nat.mul_le_mul_left 8 (swidth_le _)
  rw [sintval, readInt_of_int hk, except_ok_bind]
  dsimp only
  rw [toInt_emod_two_pow hw, Int.toNat_natCast, be_mod le_rfl]
  rfl

/-- The width SINTENC chooses is one SINTDEC accepts, and holds the number (41_scalar_codecs.md R105). -/
theorem swidth_spec {n : Int} (hlow : -2 ^ 63 ≤ n) (hhigh : n < 2 ^ 63) :
    swidth n ∈ [1, 2, 4, 8] ∧ -2 ^ (8 * swidth n) ≤ n * 2 ∧ n * 2 < 2 ^ (8 * swidth n) := by
  unfold swidth
  split_ifs <;> refine ⟨by decide, ?_, ?_⟩ <;> norm_num <;> omega

theorem sintof_of_length {v : List Byte} (h : v.length ∈ [1, 2, 4, 8]) : sintof v = .ok (.ofInt (sbe v)) :=
  if_neg (by simpa [or_iff_not_imp_left] using h)

/-- A value portion of an accepted length is the number its bytes make, sign-extended (41_scalar_codecs.md R107). -/
theorem sintof_eq {w : Nat} (x : BitVec w) {v : List Byte} (hlen : v.length ∈ [1, 2, 4, 8]) (hw : w = 8 * v.length)
    (h : ube v = x.toNat) : sintof v = .ok { kind := 2, val := x.signExtend 64 } := by
  rw [sintof_of_length hlen, sbe_eq_toInt x hw h]
  rfl

theorem sintof_of_badLength {v : List Byte} (h : v.length ∉ [1, 2, 4, 8]) : sintof v = .error .badValueLength :=
  if_pos (by simpa using h)

/-! UnsignedInteger (41_scalar_codecs.md R108, R110). -/

/-- The narrowest of 1, 2, 4 bytes for a number from 0 to 2^32 - 1 (41_scalar_codecs.md R108). -/
def uwidth (n : Int) : Nat := if n ≤ 255 then 1 else if n ≤ 65535 then 2 else 4

theorem uwidth_le (n : Int) : uwidth n ≤ 8 := by
  unfold uwidth
  split_ifs <;> decide

theorem toNat_toInt_of_nonneg {v : DWord} (h : 0 ≤ v.toInt) : v.toInt.toNat = v.toNat := by
  have := v.isLt
  rw [BitVec.toInt_eq_toNat_cond] at h ⊢
  split_ifs at h ⊢ <;> omega

theorem uintval_of_int {o : Operand} (hk : o.kind = Kind.int) (hlow : 0 ≤ o.val.toInt)
    (hhigh : o.val.toInt ≤ 4294967295) : uintval o = .ok (be (uwidth o.val.toInt) o.val.toNat) := by
  rw [uintval, readInt_of_int hk, except_ok_bind, if_neg (by omega), if_neg (by omega), toNat_toInt_of_nonneg hlow,
    uwidth]
  split_ifs <;> rfl

/-- The width UINTENC chooses is one UINTDEC accepts, and holds the number (41_scalar_codecs.md R108). -/
theorem uwidth_spec {n : Nat} (h : n ≤ 4294967295) : uwidth n ∈ [1, 2, 4] ∧ n < 256 ^ uwidth n := by
  unfold uwidth
  split_ifs <;> refine ⟨by decide, ?_⟩ <;> norm_num <;> omega

/-- A value portion of an accepted length is the number its bytes make, zero-extended (41_scalar_codecs.md R110). -/
theorem uintof_eq {w : Nat} (x : BitVec w) {v : List Byte} (hlen : v.length ∈ [1, 2, 4]) (h : ube v = x.toNat) :
    uintof v = .ok { kind := 2, val := x.setWidth 64 } := by
  have haccepted : ¬ (v.length ≠ 1 ∧ v.length ≠ 2 ∧ v.length ≠ 4) := by
    simpa [or_iff_not_imp_left] using hlen
  rw [uintof, if_neg haccepted, h, ofInt_natCast, BitVec.ofNat_toNat]

theorem uintof_of_badLength {v : List Byte} (h : v.length ∉ [1, 2, 4]) : uintof v = .error .badValueLength :=
  if_pos (by simpa using h)

/-! FloatingPoint (41_scalar_codecs.md R111). -/

theorem fltval_single {o : Operand} (hk : o.kind = Kind.float32) (p : Config.Params) :
    fltval p .single o = .ok (0x08 :: be 4 o.val.toNat) := by
  have hread : o.readFloat32 = .ok (o.val.extractLsb' 0 32) := if_pos hk
  have hlow : (o.val.extractLsb' 0 32).toNat = o.val.toNat % 2 ^ 32 := BitVec.extractLsb'_toNat ..
  rw [fltval, hread, except_ok_bind, hlow, be_mod le_rfl]
  rfl

theorem fltval_double {o : Operand} (hk : o.kind = Kind.float64) (p : Config.Params) :
    fltval p .double o = .ok (p.doubleDisc :: be 8 o.val.toNat) := by
  have hread : o.readFloat64 = .ok o.val := if_pos hk
  rw [fltval, hread]
  rfl

theorem disc_eq (p : Config.Params) (prec : Prec) : disc p prec = if prec = .single then 0x08 else p.doubleDisc := by
  cases prec <;> rfl

/-- The length of a bit pattern (41_scalar_codecs.md R111). -/
def patternLength (prec : Prec) : Nat := if prec = .single then 4 else 8

theorem fltof_single (p : Config.Params) {bs : List Byte} (hlen : bs.length = 4) (x : Word) (h : ube bs = x.toNat) :
    fltof p .single (0x08 :: bs) = .ok { kind := 3, val := x.setWidth 64 } := by
  simp [fltof, disc, hlen, h, Operand.ofFloat32]

theorem fltof_double (p : Config.Params) {bs : List Byte} (hlen : bs.length = 8) (x : DWord) (h : ube bs = x.toNat) :
    fltof p .double (p.doubleDisc :: bs) = .ok { kind := 4, val := x } := by
  simp [fltof, disc, hlen, h, Operand.ofFloat64]

theorem fltof_wrongDisc {p : Config.Params} {prec : Prec} {d : Byte} (h : d ≠ disc p prec) (bs : List Byte) :
    fltof p prec (d :: bs) = .error .wrongFloatDisc := if_pos h

theorem fltof_badLength (p : Config.Params) {prec : Prec} {bs : List Byte} (h : bs.length ≠ patternLength prec) :
    fltof p prec (disc p prec :: bs) = .error .badValueLength := by
  cases prec <;> simp_all [fltof, patternLength]

/-! Quality and Timestamp value portions that are refused (42_quality_timestamp.md R132, R138). -/

theorem qualof_of_badAccuracy {b : Byte} (h : ¬ AccuracyOk (b.extractLsb' 0 5).toNat) :
    qualof b = .error .rangeAccuracyWire := by
  have hlt := (b.extractLsb' 0 5).isLt
  unfold AccuracyOk at h
  exact if_pos (by omega)

theorem qualdecValue_of_badLength {v : List Byte} (h : v.length ≠ 1) : qualdecValue v = .error .badValueLength := by
  unfold qualdecValue
  split
  · simp at h
  · rfl

theorem tsof_of_badLength {v : List Byte} (h : v.length ≠ 8) : tsof v = .error .badValueLength := by
  unfold tsof
  split
  · simp at h
  · rfl

theorem tsof_of_badAccuracy {r : List Byte} {q : Byte} (hr : r.length = 7)
    (h : ¬ AccuracyOk (q.extractLsb' 0 5).toNat) : tsof (r ++ [q]) = .error .rangeAccuracyWire := by
  match r with
  | [s0, s1, s2, s3, f0, f1, f2] =>
    show (qualof q >>= _) = _
    rw [qualof_of_badAccuracy h, except_error_bind]

end Sys2Proof.Machine
end

section
/-! PROOFS. The statements about the scalar codecs (41_scalar_codecs.md). -/

namespace Sys2Proof.Machine

open Sys2Proof.Safety

/-! The value portions as the statements write them out. -/

/-- SINTENC's value portion, by the payload's bytes. -/
theorem be_swidth (v : DWord) (n : Int) : be (swidth n) v.toNat =
    if -128 ≤ n ∧ n ≤ 127 then [payloadByte v 0]
    else if -32768 ≤ n ∧ n ≤ 32767 then [payloadByte v 1, payloadByte v 0]
    else if -2147483648 ≤ n ∧ n ≤ 2147483647 then [payloadByte v 3, payloadByte v 2, payloadByte v 1, payloadByte v 0]
    else [payloadByte v 7, payloadByte v 6, payloadByte v 5, payloadByte v 4, payloadByte v 3, payloadByte v 2,
      payloadByte v 1, payloadByte v 0] := by
  unfold swidth
  norm_num only
  split_ifs <;> rfl

/-- UINTENC's value portion, by the payload's bytes. -/
theorem be_uwidth (v : DWord) (n : Int) : be (uwidth n) v.toNat =
    if n ≤ 255 then [payloadByte v 0]
    else if n ≤ 65535 then [payloadByte v 1, payloadByte v 0]
    else [payloadByte v 3, payloadByte v 2, payloadByte v 1, payloadByte v 0] := by
  unfold uwidth
  split_ifs <;> rfl

/-! The integer decoders, from a value portion taken. -/

theorem sintdec_reads {s : State} {raw : Bool} {tag : Byte} {v : List Byte} (h : TakesValue raw tag s v) {w : Nat}
    (x : BitVec w) (hlen : v.length ∈ [1, 2, 4, 8]) (hw : w = 8 * v.length) (hx : ube v = x.toNat) :
    ∃ t, exec (.sintdec raw tag) s = .next t ∧
      SetOperands s t 0x13 { kind := 2, val := x.signExtend 64 } s.opb :=
  setOperands_of_value h (sintof_eq x hlen hw hx) rfl

theorem uintdec_reads {s : State} {raw : Bool} {tag : Byte} {v : List Byte} (h : TakesValue raw tag s v) {w : Nat}
    (x : BitVec w) (hlen : v.length ∈ [1, 2, 4]) (hx : ube v = x.toNat) :
    ∃ t, exec (.uintdec raw tag) s = .next t ∧
      SetOperands s t 0x15 { kind := 2, val := x.setWidth 64 } s.opb :=
  setOperands_of_value h (uintof_eq x hlen hx) rfl

/-! The statements. -/

/-- Settles O35: NONE has an empty value portion, a BOOL the byte its payload says. -/
theorem boolencAppendsBoolean : Obligations.BoolencAppendsBoolean := by
  refine fun s raw tag => ⟨fun hk => ?_, fun hk hv => ?_, fun hk hv => ?_⟩
  · exact emitsBytes_of_value (boolval_of_none hk) (by simp [ShortValue]) rfl
  · have hvalue := boolval_of_bool hk
    rw [if_neg hv] at hvalue
    exact emitsBytes_of_value hvalue (by simp [ShortValue]) rfl
  · have hvalue := boolval_of_bool hk
    rw [if_pos hv] at hvalue
    exact emitsBytes_of_value hvalue (by simp [ShortValue]) rfl

/-- Settles O36: the two forms `boolof` accepts. -/
theorem booldecReadsBoolean : Obligations.BooldecReadsBoolean := by
  refine fun s raw tag => ⟨fun h => ?_, fun b h => ?_⟩
  · exact setOperands_of_value h (f := boolof) rfl rfl
  · exact setOperands_of_value h (boolof_byte b) rfl

/-- Settles O37: the value portion is the payload's low bytes, as many as `swidth` says. -/
theorem sintencAppendsNarrowestSigned : Obligations.SintencAppendsNarrowestSigned := by
  intro s raw tag hk
  have h := emitsBytes_of_value (i := .sintenc raw tag) (sintval_of_int hk) (shortValue_be (swidth_le _) _) rfl
  rwa [be_swidth] at h

/-- Settles O38: at each width `sbe` is the signed value of the bytes put together. -/
theorem sintdecSignExtends : Obligations.SintdecSignExtends := by
  refine fun s raw tag => ⟨fun b0 h => ?_, fun b1 b0 h => ?_, fun b3 b2 b1 b0 h => ?_,
    fun b7 b6 b5 b4 b3 b2 b1 b0 h => ?_⟩
  · exact sintdec_reads h b0 (by simp) rfl (ube_single b0)
  · exact sintdec_reads h (b1 ++ b0) (by simp) rfl (ube_pair b1 b0)
  · exact sintdec_reads h (b3 ++ b2 ++ b1 ++ b0) (by simp) rfl (ube_quad b3 b2 b1 b0)
  · have hread := sintdec_reads h (w := 64) _ (by simp) rfl (ube_oct b7 b6 b5 b4 b3 b2 b1 b0)
    rwa [BitVec.signExtend_eq] at hread

/-- Settles O39: the value portion is the payload's low bytes, as many as the number needs. -/
theorem uintencAppendsNarrowestUnsigned : Obligations.UintencAppendsNarrowestUnsigned := by
  intro s raw tag hk hlow hhigh
  have h := emitsBytes_of_value (i := .uintenc raw tag) (uintval_of_int hk hlow hhigh)
    (shortValue_be (uwidth_le _) _) rfl
  rwa [be_uwidth] at h

/-- Settles O40: at each width `ube` is the unsigned value of the bytes put together. -/
theorem uintdecZeroExtends : Obligations.UintdecZeroExtends := by
  refine fun s raw tag => ⟨fun b0 h => ?_, fun b1 b0 h => ?_, fun b3 b2 b1 b0 h => ?_⟩
  · exact uintdec_reads h b0 (by simp) (ube_single b0)
  · exact uintdec_reads h (b1 ++ b0) (by simp) (ube_pair b1 b0)
  · exact uintdec_reads h (b3 ++ b2 ++ b1 ++ b0) (by simp) (ube_quad b3 b2 b1 b0)

/-- Settles O41: the discriminator, then the payload's low 4 or 8 bytes. -/
theorem fltencAppendsBitPattern : Obligations.FltencAppendsBitPattern := by
  refine fun s raw tag => ⟨fun hk => ?_, fun hk => ?_⟩
  · exact emitsBytes_of_value (fltval_single hk s.params) (by simp [ShortValue]) rfl
  · exact emitsBytes_of_value (fltval_double hk s.params) (by simp [ShortValue]) rfl

/-- Settles O42: the pattern is the bit vector its bytes make. -/
theorem fltdecReadsBitPattern : Obligations.FltdecReadsBitPattern := by
  refine fun s raw tag => ⟨fun b3 b2 b1 b0 h => ?_, fun b7 b6 b5 b4 b3 b2 b1 b0 h => ?_⟩
  · exact setOperands_of_value h (fltof_single s.params rfl _ (ube_quad b3 b2 b1 b0)) rfl
  · exact setOperands_of_value h (fltof_double s.params rfl _ (ube_oct b7 b6 b5 b4 b3 b2 b1 b0)) rfl

/-- Settles O43: `fltof` looks for a first byte, then at that byte, then at the length. -/
theorem fltdecRefusesOtherValues : Obligations.FltdecRefusesOtherValues := by
  refine fun s raw tag prec => ⟨fun h => ?_, fun d r h hd => ?_, fun d r h hd hlen => ?_⟩
  · exact commit_takeValue_error h (f := fltof s.params prec) rfl 0x17 _
  · rw [← disc_eq] at hd
    exact commit_takeValue_error h (fltof_wrongDisc hd r) 0x17 _
  · rw [← disc_eq] at hd
    subst hd
    exact commit_takeValue_error h (fltof_badLength s.params hlen) 0x17 _

/-- Settles O55: each decoder's reading of the value portion raises. -/
theorem unacceptedValueIsDecodeError : Obligations.UnacceptedValueIsDecodeError := by
  refine fun s raw tag v h => ⟨fun hlen => ?_, fun hlen => ?_, fun hlen => ?_, fun hlen => ?_, fun hlen => ?_,
    fun q hv hacc => ?_, fun r q hv hr hacc => ?_⟩
  · exact commit_takeValue_error h (boolof_of_long hlen) 0x11 _
  · exact commit_takeValue_error h (sintof_of_badLength hlen) 0x13 _
  · exact commit_takeValue_error h (uintof_of_badLength hlen) 0x15 _
  · exact commit_takeValue_error h (qualdecValue_of_badLength hlen) 0x21 _
  · exact commit_takeValue_error h (tsof_of_badLength hlen) 0x23 _
  · subst hv
    exact commit_takeValue_error h (f := qualdecValue) (qualof_of_badAccuracy hacc) 0x21 _
  · subst hv
    exact commit_takeValue_error h (tsof_of_badAccuracy hr hacc) 0x23 _

end Sys2Proof.Machine
end

section
/-! PROOFS. The round trip of every scalar kind (41_scalar_codecs.md R115). -/

namespace Sys2Proof.Machine

open Sys2Proof.Safety

/-- An operand is its kind and its payload. -/
theorem operand_of_kind {o : Operand} {k : BitVec 4} (hk : o.kind = k) : { kind := k, val := o.val } = o := by
  subst hk
  rfl

/-! What a decoder reads from the value portion its encoder makes. -/

/-- A BOOL comes back with payload 0 or 1 (41_scalar_codecs.md R115). -/
theorem boolof_of_boolval (v : DWord) :
    boolof [if v = 0 then 0x00 else 0x0F] = .ok { kind := 1, val := if v = 0 then 0 else 1 } := by
  simp [boolof_byte]

theorem sintof_of_sintval {o : Operand} (hk : o.kind = Kind.int) :
    sintof (be (swidth o.val.toInt) o.val.toNat) = .ok o := by
  obtain ⟨hwidth, hlow, hhigh⟩ := swidth_spec (BitVec.le_toInt o.val) (BitVec.toInt_lt (x := o.val))
  rw [sintof_of_length (by rwa [be_length]), sbe_be (swidth_le _) hlow hhigh, Operand.ofInt, BitVec.ofInt_toInt,
    operand_of_kind hk]

theorem uintof_of_uintval {o : Operand} (hk : o.kind = Kind.int) (hlow : 0 ≤ o.val.toInt)
    (hhigh : o.val.toInt ≤ 4294967295) : uintof (be (uwidth o.val.toInt) o.val.toNat) = .ok o := by
  have hnat : (o.val.toNat : Int) = o.val.toInt := by rw [← toNat_toInt_of_nonneg hlow, Int.toNat_of_nonneg hlow]
  obtain ⟨hwidth, hlt⟩ := uwidth_spec (n := o.val.toNat) (by omega)
  rw [hnat] at hwidth hlt
  rw [uintof_eq o.val (by rwa [be_length]) (ube_be_of_lt hlt), BitVec.setWidth_eq, operand_of_kind hk]

theorem fltof_single_of_fltval {o : Operand} (hk : o.kind = Kind.float32) (hhigh : o.val.extractLsb' 32 32 = 0#32)
    (p : Config.Params) : fltof p .single (0x08 :: be 4 o.val.toNat) = .ok o := by
  have hpattern : ube (be 4 o.val.toNat) = (o.val.setWidth 32).toNat := by
    rw [ube_be, BitVec.toNat_setWidth]
    norm_num
  have hval : (o.val.setWidth 32).setWidth 64 = o.val := by
    have := congrArg BitVec.toNat hhigh
    apply BitVec.eq_of_toNat_eq
    simp at this ⊢
    omega
  rw [fltof_single p (be_length 4 _) _ hpattern, hval, operand_of_kind hk]

theorem fltof_double_of_fltval {o : Operand} (hk : o.kind = Kind.float64) (p : Config.Params) :
    fltof p .double (p.doubleDisc :: be 8 o.val.toNat) = .ok o := by
  rw [fltof_double p (be_length 8 _) o.val (ube_be_of_lt o.val.isLt), operand_of_kind hk]

/-- Settles O56: each decoder reads the operand back from its encoder's value portion, which MOVOI hands over. -/
theorem codecRoundTrip : Obligations.CodecRoundTrip := by
  refine fun s raw tag hok hempty => ⟨fun hk => ?_, fun hk hlow hhigh => ?_, fun hk hhigh => ?_, fun hk => ?_,
    fun hk => ?_, fun hk => ?_⟩
  · exact roundTrips_of_value hok hempty (sintval_of_int hk) (shortValue_be (swidth_le _) _) rfl
      fun _ _ hu => setOperands_of_value hu (sintof_of_sintval hk) rfl
  · exact roundTrips_of_value hok hempty (uintval_of_int hk hlow hhigh) (shortValue_be (uwidth_le _) _) rfl
      fun _ _ hu => setOperands_of_value hu (uintof_of_uintval hk hlow hhigh) rfl
  · exact roundTrips_of_value hok hempty (fltval_single hk s.params) (by simp [ShortValue]) rfl
      fun u _ hu => setOperands_of_value hu (fltof_single_of_fltval hk hhigh u.params) rfl
  · exact roundTrips_of_value hok hempty (fltval_double hk s.params) (by simp [ShortValue]) rfl
      fun u hparams hu => setOperands_of_value hu (hparams ▸ fltof_double_of_fltval hk u.params) rfl
  · exact roundTrips_of_value hok hempty (boolval_of_bool hk) (by simp [ShortValue]) rfl
      fun _ _ hu => setOperands_of_value hu (boolof_of_boolval s.opa.val) rfl
  · exact roundTrips_of_value hok hempty (boolval_of_none hk) (by simp [ShortValue]) rfl
      fun _ _ hu => setOperands_of_value hu (f := boolof) rfl rfl

end Sys2Proof.Machine
end

section
/-! PROOFS. The Quality byte (42_quality_timestamp.md R130 to R132). -/

namespace Sys2Proof.Machine

open Sys2Proof.Safety

/-! Fields put together: three flags and five bits of accuracy. -/

/-- One bit of a bit vector, taken as a field. -/
theorem extractLsb'_one {w : Nat} (x : BitVec w) (i : Nat) : x.extractLsb' i 1 = BitVec.ofBool (x.getLsbD i) := by
  ext j hj
  obtain rfl : j = 0 := by omega
  simp

theorem qualityByte_eq_append : ∀ (lsk cf cns : Bool) (acc : BitVec 5),
    qualityByte lsk cf cns (acc.setWidth 8) =
      BitVec.ofBool lsk ++ BitVec.ofBool cf ++ BitVec.ofBool cns ++ acc := by decide

theorem ofQuality_eq_append : ∀ (lsk cf cns : Bool) (acc : BitVec 5),
    Operand.ofQuality lsk cf cns (acc.setWidth 8) =
      { kind := 5, val := (0 : BitVec 51) ++ acc ++ (0 : BitVec 5) ++ BitVec.ofBool cns ++ BitVec.ofBool cf ++
        BitVec.ofBool lsk } := by decide

/-! The accuracy of a payload. -/

/-- A valid accuracy fits in the wire byte's five bits (42_quality_timestamp.md R130). -/
theorem accuracyOk_lt {acc : Nat} (h : AccuracyOk acc) : acc < 32 := by
  unfold AccuracyOk at h
  omega

/-- The accuracy that the wire byte keeps of a payload is the payload's. -/
theorem qualityAcc_eq_setWidth {v : DWord} (h : (payloadByte v 1).toNat < 32) :
    qualityAcc v = (v.extractLsb' 8 5).setWidth 8 := by
  have hacc : (qualityAcc v).toNat < 32 := h
  apply BitVec.eq_of_toNat_eq
  simp only [qualityAcc, BitVec.extractLsb'_toNat, BitVec.toNat_setWidth] at hacc ⊢
  omega

/-- The bits of a payload's accuracy above those five are 0. -/
theorem payload_high_bits {v : DWord} (h : (payloadByte v 1).toNat < 32) :
    v[13] = false ∧ v[14] = false ∧ v[15] = false := by
  have hbit (j : Nat) (hj : 5 ≤ j) : (payloadByte v 1).getLsbD j = false :=
    Nat.testBit_lt_two_pow (lt_of_lt_of_le h (Nat.pow_le_pow_right (n := 2) (by decide) hj))
  exact ⟨by simpa [payloadByte] using hbit 5 (by decide), by simpa [payloadByte] using hbit 6 (by decide),
    by simpa [payloadByte] using hbit 7 (by decide)⟩

/-! Writing. -/

/-- A Quality with a valid accuracy has its wire byte for value portion (42_quality_timestamp.md R131). -/
theorem qualval_of_quality {o : Operand} (hk : o.kind = Kind.quality) (h : AccuracyOk (payloadByte o.val 1).toNat) :
    qualval o = .ok [qualityWire o.val] := by
  have hbyte : qualityByte (qualityLsk o.val) (qualityCf o.val) (qualityCns o.val) (qualityAcc o.val) =
      qualityWire o.val := by
    rw [qualityAcc_eq_setWidth (accuracyOk_lt h), qualityByte_eq_append, qualityWire]
    simp only [extractLsb'_one]
    rfl
  rw [qualval, readQuality_of_quality hk, except_ok_bind, ← hbyte]
  exact if_pos h

/-! Reading. -/

/-- A wire byte with a valid accuracy is read to its payload (42_quality_timestamp.md R132). -/
theorem qualof_of_accuracyOk {b : Byte} (h : AccuracyOk (b.extractLsb' 0 5).toNat) :
    qualof b = .ok { kind := 5, val := qualityPayload b } := by
  have hoperand : Operand.ofQuality b[7] b[6] b[5] ((b.extractLsb' 0 5).setWidth 8) =
      { kind := 5, val := qualityPayload b } := by
    rw [ofQuality_eq_append, qualityPayload]
    simp only [extractLsb'_one]
    rfl
  unfold AccuracyOk at h
  rw [qualof, hoperand]
  exact if_neg (by omega)

/-! There and back. -/

/-- The wire byte of a payload has the payload's accuracy. -/
theorem qualityWire_accuracy {v : DWord} (h : (payloadByte v 1).toNat < 32) :
    ((qualityWire v).extractLsb' 0 5).toNat = (payloadByte v 1).toNat := by
  have hlow : (qualityWire v).extractLsb' 0 5 = v.extractLsb' 8 5 :=
    BitVec.extractLsb'_append_eq_right
  have hacc : payloadByte v 1 = (v.extractLsb' 8 5).setWidth 8 := qualityAcc_eq_setWidth h
  rw [hlow, hacc, BitVec.toNat_setWidth_of_le (by decide)]

/-- The payload of a payload's wire byte is its four fields, the reserved bits 0. -/
theorem qualityPayload_qualityWire {v : DWord} (h : (payloadByte v 1).toNat < 32) :
    qualityPayload (qualityWire v) = v &&& 0x000000000000FF07 := by
  obtain ⟨h13, h14, h15⟩ := payload_high_bits h
  apply BitVec.eq_of_getLsbD_eq
  intro i hi
  simp only [qualityPayload, qualityWire, BitVec.getLsbD_append, BitVec.getLsbD_extractLsb', BitVec.getLsbD_and]
  interval_cases i <;> simp [h13, h14, h15]

/-- Decoding the wire byte that QUALENC or TSENC makes (42_quality_timestamp.md R139). -/
theorem qualof_qualityWire {v : DWord} (h : AccuracyOk (payloadByte v 1).toNat) :
    qualof (qualityWire v) = .ok { kind := 5, val := v &&& 0x000000000000FF07 } := by
  have hlt := accuracyOk_lt h
  rw [qualof_of_accuracyOk (by rwa [qualityWire_accuracy hlt]), qualityPayload_qualityWire hlt]

/-! The statements. -/

/-- Writing both operands is what TSDEC does; QUALDEC writes OPA's own value. -/
theorem setOperands_setBoth (s : State) (op : Byte) (a b : Operand) :
    SetOperands s (((s.setOpa a).setOpb b).complete op) op a b where
  ends := ends_complete op rfl rfl rfl rfl
  opa := rfl
  opb := rfl
  input := ⟨rfl, fun _ => rfl⟩
  output := ⟨rfl, fun _ => rfl⟩

/-- Settles O44: the value portion is the payload's wire byte. -/
theorem qualencAppendsQualityByte : Obligations.QualencAppendsQualityByte :=
  fun _ _ _ hk hacc => emitsBytes_of_value (qualval_of_quality hk hacc) (by simp [ShortValue]) rfl

/-- Settles O45: `qualof` reads the one byte of the value portion. -/
theorem qualdecReadsQualityByte : Obligations.QualdecReadsQualityByte := by
  intro s raw tag b h hacc
  refine ⟨_, ?_, setOperands_setBoth s 0x21 s.opa _⟩
  show s.commit 0x21 (s.takeValue raw tag >>= _) = _
  rw [commit_bind_ok (takeValue_of_takesValue h), qualdecValue, commit_bind_ok (qualof_of_accuracyOk hacc)]
  rfl

end Sys2Proof.Machine
end

section
/-! PROOFS. binary64 values as whole numbers of their least unit (PRESUMED layout, log entry 9): `Safety.f64Value` by
`f64Scaled`, and which patterns hold a given number of units. -/

namespace Sys2Proof.Machine

open Sys2Proof.Safety

/-! The fields of a pattern. -/

theorem f64Mantissa_lt (b : DWord) : f64Mantissa b < 2 ^ 52 := (b.extractLsb' 0 52).isLt

/-- The sign is the top bit. -/
theorem sign_eq_false_iff (b : DWord) : b[63] = false ↔ b.toNat < 2 ^ 63 := by
  have hmsb : b.msb = b[63] := BitVec.msb_eq_getLsbD_last b
  rw [← hmsb, BitVec.msb_eq_decide, decide_eq_false_iff_not, not_le]

/-- With the sign clear, a pattern as a number is its exponent above its fraction. -/
theorem toNat_eq_of_positive {b : DWord} (h : b[63] = false) : b.toNat = f64Exponent b * 2 ^ 52 + f64Mantissa b := by
  have hlt := (sign_eq_false_iff b).1 h
  simp only [f64Exponent, f64Mantissa, BitVec.extractLsb'_toNat, Nat.shiftRight_eq_div_pow]
  omega

/-- The fields of a pattern given as a number, the sign clear. -/
theorem f64_fields_of_toNat {b : DWord} {e m : Nat} (h : b.toNat = e * 2 ^ 52 + m) (he : e < 2 ^ 11) (hm : m < 2 ^ 52) :
    f64Exponent b = e ∧ f64Mantissa b = m ∧ b[63] = false := by
  simp only [f64Exponent, f64Mantissa, BitVec.extractLsb'_toNat, Nat.shiftRight_eq_div_pow, sign_eq_false_iff, h]
  omega

/-! The magnitude in units. -/

theorem f64Scaled_of_subnormal {b : DWord} (h : f64Exponent b = 0) : f64Scaled b = f64Mantissa b := if_pos h

theorem f64Scaled_of_normal {b : DWord} (h : f64Exponent b ≠ 0) :
    f64Scaled b = (2 ^ 52 + f64Mantissa b) * 2 ^ (f64Exponent b - 1) := if_neg h

/-- The magnitude is below twice its leading bit's weight. -/
theorem f64Scaled_lt (b : DWord) : f64Scaled b < 2 ^ (52 + f64Exponent b) := by
  have hm := f64Mantissa_lt b
  by_cases h : f64Exponent b = 0
  · rwa [f64Scaled_of_subnormal h, h]
  · obtain ⟨k, hk⟩ := Nat.exists_eq_succ_of_ne_zero h
    rw [f64Scaled_of_normal h, hk, Nat.succ_sub_one, show 52 + k.succ = 53 + k by omega, pow_add]
    exact Nat.mul_lt_mul_of_pos_right (by omega) (Nat.two_pow_pos k)

/-- A normal pattern's magnitude is at least its leading bit's weight. -/
theorem le_f64Scaled {b : DWord} (h : f64Exponent b ≠ 0) : 2 ^ (52 + (f64Exponent b - 1)) ≤ f64Scaled b := by
  rw [f64Scaled_of_normal h, pow_add]
  exact Nat.mul_le_mul_right _ (Nat.le_add_right _ _)

/-- The two zeros are the patterns with both fields 0. -/
theorem f64Scaled_eq_zero_iff (b : DWord) : f64Scaled b = 0 ↔ f64Exponent b = 0 ∧ f64Mantissa b = 0 := by
  by_cases h : f64Exponent b = 0
  · simp [f64Scaled_of_subnormal h, h]
  · simp [f64Scaled_of_normal h, h]

/-- THE SPACING OF BINARY64: a magnitude from 2^(52 + j) units up is a multiple of 2^j units. -/
theorem two_pow_dvd_f64Scaled {b : DWord} {j : Nat} (h : 2 ^ (52 + j) ≤ f64Scaled b) : 2 ^ j ∣ f64Scaled b := by
  have hj : 52 + j < 52 + f64Exponent b :=
    (Nat.pow_lt_pow_iff_right (by decide)).1 (lt_of_le_of_lt h (f64Scaled_lt b))
  rw [f64Scaled_of_normal (by omega)]
  exact Dvd.dvd.mul_left (pow_dvd_pow 2 (by omega)) _

/-- A pattern with a greater exponent has a greater magnitude. -/
theorem f64Scaled_lt_of_exponent_lt {b b' : DWord} (h : f64Exponent b < f64Exponent b') : f64Scaled b < f64Scaled b' :=
  calc f64Scaled b < 2 ^ (52 + f64Exponent b) := f64Scaled_lt b
    _ ≤ 2 ^ (52 + (f64Exponent b' - 1)) := Nat.pow_le_pow_right (by decide) (by omega)
    _ ≤ f64Scaled b' := le_f64Scaled (by omega)

/-- A positive pattern is the only one of its magnitude. -/
theorem f64Scaled_injective {b b' : DWord} (hb : b[63] = false) (hb' : b'[63] = false)
    (h : f64Scaled b = f64Scaled b') : b = b' := by
  have he : f64Exponent b = f64Exponent b' := by
    rcases lt_trichotomy (f64Exponent b) (f64Exponent b') with hlt | heq | hgt
    · exact absurd h (f64Scaled_lt_of_exponent_lt hlt).ne
    · exact heq
    · exact absurd h (f64Scaled_lt_of_exponent_lt hgt).ne'
  have hm : f64Mantissa b = f64Mantissa b' := by
    by_cases h0 : f64Exponent b' = 0
    · rwa [f64Scaled_of_subnormal (he.trans h0), f64Scaled_of_subnormal h0] at h
    · rw [f64Scaled_of_normal (he ▸ h0), f64Scaled_of_normal h0, he] at h
      exact Nat.add_left_cancel (Nat.eq_of_mul_eq_mul_right (Nat.two_pow_pos _) h)
  apply BitVec.eq_of_toNat_eq
  rw [toNat_eq_of_positive hb, toNat_eq_of_positive hb', he, hm]

/-! The rational value. -/

theorem f64Unit_cast_pos : (0 : ℚ) < f64Unit := Nat.cast_pos.2 f64Unit_pos

/-- The rational value is the magnitude over the unit, with the sign. -/
theorem f64Value_eq (b : DWord) :
    f64Value b = (if b[63] then -1 else 1) * ((f64Scaled b : ℚ) / f64Unit) := by
  have hfields : f64Value b = (if b[63] then -1 else 1) * (if f64Exponent b = 0 then (f64Mantissa b : ℚ) / 2 ^ 1074
      else ((2 ^ 52 + f64Mantissa b : ℕ) : ℚ) * 2 ^ f64Exponent b / 2 ^ 1075) := rfl
  rw [hfields, f64Unit_cast]
  congr 1
  by_cases h : f64Exponent b = 0
  · rw [if_pos h, f64Scaled_of_subnormal h]
  · obtain ⟨k, hk⟩ := Nat.exists_eq_succ_of_ne_zero h
    rw [if_neg h, f64Scaled_of_normal h, hk, Nat.succ_sub_one, Nat.cast_mul, Nat.cast_pow, Nat.cast_ofNat,
      pow_succ (2 : ℚ) k, pow_succ (2 : ℚ) 1074, ← mul_assoc, mul_div_mul_right _ _ two_ne_zero]

theorem f64Value_of_positive {b : DWord} (h : b[63] = false) : f64Value b = (f64Scaled b : ℚ) / f64Unit := by
  rw [f64Value_eq, h, if_neg Bool.false_ne_true, one_mul]

theorem f64Value_of_negative {b : DWord} (h : b[63] = true) : f64Value b = -((f64Scaled b : ℚ) / f64Unit) := by
  rw [f64Value_eq, h, if_pos rfl, neg_one_mul]

theorem f64Scaled_div_nonneg (b : DWord) : 0 ≤ (f64Scaled b : ℚ) / f64Unit := by positivity

/-- A value above 0 has its sign clear. -/
theorem sign_of_pos {b : DWord} (h : 0 < f64Value b) : b[63] = false := by
  by_contra hs
  rw [f64Value_of_negative (Bool.eq_true_of_not_eq_false hs)] at h
  linarith [f64Scaled_div_nonneg b]

/-- A value from 0 up is its magnitude, -0.0 included. -/
theorem f64Value_of_nonneg {b : DWord} (h : 0 ≤ f64Value b) : f64Value b = (f64Scaled b : ℚ) / f64Unit := by
  rcases h.eq_or_lt with h0 | hpos
  · rw [f64Value_eq] at h0 ⊢
    split_ifs at h0 ⊢ <;> linarith
  · exact f64Value_of_positive (sign_of_pos hpos)

/-! The model's tests on a pattern. -/

/-- Not finite is a NaN or an infinity, as the model tests them. -/
theorem not_f64Finite_iff (b : DWord) : ¬ F64Finite b ↔ f64IsNaN b = true ∨ f64IsInf b = true := by
  have hfinite : ¬ F64Finite b ↔ f64Exponent b = 2047 := not_not
  simp only [hfinite, f64IsNaN, f64IsInf, Bool.and_eq_true, beq_iff_eq, bne_iff_ne]
  tauto

/-- `s < 0` as the model tests it. -/
theorem f64IsNegative_iff (b : DWord) : f64IsNegative b = true ↔ f64Value b < 0 := by
  have htest : f64IsNegative b = true ↔ b[63] = true ∧ f64Scaled b ≠ 0 := by
    simp only [f64IsNegative, ne_eq, f64Scaled_eq_zero_iff, Bool.and_eq_true, Bool.or_eq_true, bne_iff_ne]
    tauto
  rw [htest]
  by_cases hs : b[63] = true
  · rw [f64Value_of_negative hs, neg_lt_zero, div_pos_iff_of_pos_right f64Unit_cast_pos, Nat.cast_pos,
      Nat.pos_iff_ne_zero]
    exact and_iff_right hs
  · rw [f64Value_of_positive (Bool.eq_false_of_not_eq_true hs)]
    exact iff_of_false (fun h => hs h.1) (not_lt.2 (f64Scaled_div_nonneg b))

end Sys2Proof.Machine
end

section
/-! PROOFS. Rounding to nearest, ties to even (42_quality_timestamp.md R134, R137), against `Safety.NearestEven`. -/

namespace Sys2Proof.Machine

open Sys2Proof.Safety

/-- `roundHalfEven` is rounding to nearest, ties to even. -/
theorem roundHalfEven_nearest (n : Nat) {d : Nat} (hd : 0 < d) : NearestEven ((n : ℚ) / d) (roundHalfEven n d) := by
  obtain ⟨hlow, hhigh, htie⟩ := roundHalfEven_spec n d hd
  generalize roundHalfEven n d = q at *
  have hdq : (0 : ℚ) < d := Nat.cast_pos.2 hd
  have hlow' : 2 * (n : ℚ) ≤ 2 * (q * d) + d := by exact_mod_cast hlow
  have hhigh' : 2 * ((q : ℚ) * d) ≤ 2 * n + d := by exact_mod_cast hhigh
  have hdist : (n : ℚ) / d - q = (n - q * d) / d := by rw [sub_div, mul_div_cancel_right₀ _ hdq.ne']
  have habs : |(n : ℚ) / d - q| = |(n : ℚ) - q * d| / d := by rw [hdist, abs_div, abs_of_pos hdq]
  rw [NearestEven, habs]
  refine ⟨?_, fun h => Nat.even_iff.2 (htie ?_)⟩
  · rw [div_le_iff₀ hdq, abs_le]
    constructor <;> linarith
  · rw [div_eq_iff hdq.ne'] at h
    rcases abs_choice ((n : ℚ) - q * d) with ha | ha <;> rw [ha] at h
    · exact .inl (by exact_mod_cast (by linarith : 2 * (n : ℚ) = 2 * (q * d) + d))
    · exact .inr (by exact_mod_cast (by linarith : 2 * ((q : ℚ) * d) = 2 * n + d))

/-- A multiple is rounded to itself. -/
theorem roundHalfEven_mul (q : Nat) {d : Nat} (hd : 0 < d) : roundHalfEven (q * d) d = q := by
  simp [roundHalfEven, Nat.mul_div_cancel _ hd, hd]

/-- Rounding does not pass a whole number. -/
theorem le_roundHalfEven {a n d : Nat} (hd : 0 < d) (h : a * d ≤ n) : a ≤ roundHalfEven n d := by
  have hspec := (roundHalfEven_spec n d hd).1
  by_contra hlt
  have hmul : (roundHalfEven n d + 1) * d ≤ a * d := Nat.mul_le_mul_right d (by omega)
  rw [Nat.add_one_mul] at hmul
  omega

theorem roundHalfEven_le {a n d : Nat} (hd : 0 < d) (h : n ≤ a * d) : roundHalfEven n d ≤ a := by
  have hspec := (roundHalfEven_spec n d hd).2.1
  by_contra hlt
  have hmul : (a + 1) * d ≤ roundHalfEven n d * d := Nat.mul_le_mul_right d (by omega)
  rw [Nat.add_one_mul] at hmul
  omega

/-- Every other number is at least half a unit from what rounds to `q`. -/
theorem half_le_of_ne {x : ℚ} {q j : ℕ} (h : NearestEven x q) (hj : j ≠ q) : 1 / 2 ≤ |x - j| := by
  have hone : (1 : ℚ) ≤ |(q : ℚ) - j| := by
    have := Int.one_le_abs (sub_ne_zero.2 (Nat.cast_injective.ne hj.symm : (q : ℤ) ≠ j))
    exact_mod_cast this
  have htri : |(q : ℚ) - j| ≤ |(q : ℚ) - x| + |x - j| := abs_sub_le _ _ _
  have hnear : |(q : ℚ) - x| ≤ 1 / 2 := abs_sub_comm x (q : ℚ) ▸ h.1
  linarith

/-- The nearest number is no farther than any other. -/
theorem nearestEven_le {x : ℚ} {q : ℕ} (h : NearestEven x q) (j : ℕ) : |x - q| ≤ |x - j| := by
  by_cases hj : j = q
  · rw [hj]
  · exact le_trans h.1 (half_le_of_ne h hj)

/-- Where another number is as near, the nearest one is even. -/
theorem nearestEven_tie {x : ℚ} {q j : ℕ} (h : NearestEven x q) (hj : j ≠ q) (heq : |x - j| = |x - q|) : Even q :=
  h.2 (le_antisymm h.1 (heq ▸ half_le_of_ne h hj))

end Sys2Proof.Machine
end

section
/-! PROOFS. TSENC's value portion (42_quality_timestamp.md R134 to R136): SEC and FRAC of a number of seconds. -/

namespace Sys2Proof.Machine

open Sys2Proof.Safety

/-! The whole seconds and the fraction, before a carry. -/

/-- `floor(s)` for the seconds of a pattern (42_quality_timestamp.md R134). -/
def wholeSeconds (b : DWord) : Nat := f64Scaled b / f64Unit

/-- The fraction times 2^24, rounded; 2^24 where it carries (42_quality_timestamp.md R134, R135). -/
def roundedFraction (b : DWord) : Nat := roundHalfEven (f64Scaled b % f64Unit * 2 ^ 24) f64Unit

theorem timestampFields_eq (b : DWord) : timestampFields b =
    (if roundedFraction b = 2 ^ 24 then wholeSeconds b + 1 else wholeSeconds b,
     if roundedFraction b = 2 ^ 24 then 0 else roundedFraction b) := by
  show (if roundedFraction b = 2 ^ 24 then (wholeSeconds b + 1, 0) else (wholeSeconds b, roundedFraction b)) = _
  split_ifs <;> rfl

/-- The Timestamp's seconds in steps of 2^-24, as the decoder puts SEC and FRAC together
(42_quality_timestamp.md R137). -/
def timestampSteps (b : DWord) : Nat := (timestampFields b).1 * 2 ^ 24 + (timestampFields b).2

/-- A carry moves 2^24 steps from FRAC to SEC: their number is the same without it. -/
theorem timestampSteps_eq (b : DWord) : timestampSteps b = wholeSeconds b * 2 ^ 24 + roundedFraction b := by
  rw [timestampSteps, timestampFields_eq]
  dsimp only
  split_ifs <;> omega

/-- The seconds are the whole seconds and a remainder of units. -/
theorem f64Scaled_div_eq (b : DWord) :
    (f64Scaled b : ℚ) / f64Unit = wholeSeconds b + ((f64Scaled b % f64Unit : ℕ) : ℚ) / f64Unit := by
  have hdiv : ((f64Scaled b % f64Unit + f64Unit * wholeSeconds b : ℕ) : ℚ) = f64Scaled b :=
    congrArg Nat.cast (Nat.mod_add_div _ _)
  have hunit := f64Unit_cast_pos.ne'
  rw [← hdiv]
  push_cast
  field_simp
  ring

/-- The seconds lie from the whole seconds to below the next (42_quality_timestamp.md R134). -/
theorem wholeSeconds_floor (b : DWord) :
    (wholeSeconds b : ℚ) ≤ (f64Scaled b : ℚ) / f64Unit ∧ (f64Scaled b : ℚ) / f64Unit < wholeSeconds b + 1 := by
  have hmod : ((f64Scaled b % f64Unit : ℕ) : ℚ) / f64Unit < 1 :=
    (div_lt_one f64Unit_cast_pos).2 (Nat.cast_lt.2 (Nat.mod_lt _ f64Unit_pos))
  have hnonneg : 0 ≤ ((f64Scaled b % f64Unit : ℕ) : ℚ) / f64Unit := by positivity
  rw [f64Scaled_div_eq]
  constructor <;> linarith

/-- FRAC is the fractional part times 2^24 to the nearest, ties to even (42_quality_timestamp.md R134). -/
theorem roundedFraction_nearest (b : DWord) :
    NearestEven (((f64Scaled b : ℚ) / f64Unit - wholeSeconds b) * 2 ^ 24) (roundedFraction b) := by
  have hnear := roundHalfEven_nearest (f64Scaled b % f64Unit * 2 ^ 24) f64Unit_pos
  rwa [Nat.cast_mul, Nat.cast_pow, Nat.cast_ofNat, mul_div_right_comm,
    ← sub_eq_iff_eq_add'.2 (f64Scaled_div_eq b)] at hnear

/-- The Timestamp is within half a step of the seconds it is made from (42_quality_timestamp.md R139). -/
theorem timestampSteps_near (b : DWord) :
    |(timestampSteps b : ℚ) / 2 ^ 24 - (f64Scaled b : ℚ) / f64Unit| ≤ 1 / 2 ^ 25 := by
  have hnear := (roundedFraction_nearest b).1
  rw [abs_le] at hnear ⊢
  rw [timestampSteps_eq, Nat.cast_add, Nat.cast_mul, Nat.cast_pow, Nat.cast_ofNat]
  constructor <;> linarith

/-! From 2^28 seconds up every binary64 is a multiple of 2^-24 (42_quality_timestamp.md R139). -/

/-- The unit in steps of 2^-24 seconds. -/
theorem f64Unit_eq_steps : f64Unit = 2 ^ 1050 * 2 ^ 24 := by rw [f64Unit_eq, ← pow_add]

/-- There the fraction is a whole number of 2^-24 seconds. -/
theorem roundedFraction_exact {b : DWord} (h : 2 ^ 28 * f64Unit ≤ f64Scaled b) :
    roundedFraction b * f64Unit = f64Scaled b % f64Unit * 2 ^ 24 := by
  have hpow : 2 ^ 28 * f64Unit = 2 ^ (52 + 1050) := by rw [f64Unit_eq, ← pow_add]
  obtain ⟨k, hk⟩ : 2 ^ 1050 ∣ f64Scaled b % f64Unit :=
    (Nat.dvd_mod_iff (Dvd.intro _ f64Unit_eq_steps.symm)).2 (two_pow_dvd_f64Scaled (hpow ▸ h))
  have hmul : f64Scaled b % f64Unit * 2 ^ 24 = k * f64Unit := by
    rw [hk, f64Unit_eq_steps, mul_comm (2 ^ 1050) k, mul_assoc]
  rw [roundedFraction, hmul, roundHalfEven_mul k f64Unit_pos]

/-- There the fraction does not carry. -/
theorem roundedFraction_lt {b : DWord} (h : 2 ^ 28 * f64Unit ≤ f64Scaled b) : roundedFraction b < 2 ^ 24 := by
  refine Nat.lt_of_mul_lt_mul_right (a := f64Unit) ?_
  rw [roundedFraction_exact h, mul_comm]
  exact Nat.mul_lt_mul_of_pos_left (Nat.mod_lt _ f64Unit_pos) (Nat.two_pow_pos 24)

/-- There the Timestamp stands for the seconds exactly. -/
theorem timestampSteps_exact {b : DWord} (h : 2 ^ 28 * f64Unit ≤ f64Scaled b) :
    (timestampSteps b : ℚ) / 2 ^ 24 = (f64Scaled b : ℚ) / f64Unit := by
  have hexact : (roundedFraction b : ℚ) * f64Unit = ((f64Scaled b % f64Unit : ℕ) : ℚ) * 2 ^ 24 := by
    exact_mod_cast roundedFraction_exact h
  have hfrac : ((f64Scaled b % f64Unit : ℕ) : ℚ) / f64Unit = roundedFraction b / 2 ^ 24 := by
    rw [div_eq_div_iff f64Unit_cast_pos.ne' (by positivity), hexact]
  rw [timestampSteps_eq, f64Scaled_div_eq, hfrac]
  push_cast
  ring

/-- SEC is above 2^32 - 1 only for seconds from 2^32 up: just below, no fraction carries
(42_quality_timestamp.md R135). -/
theorem timestampFields_fst_lt_iff (b : DWord) : (timestampFields b).1 < 2 ^ 32 ↔ f64Scaled b < 2 ^ 32 * f64Unit := by
  have hdiv : wholeSeconds b < 2 ^ 32 ↔ f64Scaled b < 2 ^ 32 * f64Unit := Nat.div_lt_iff_lt_mul f64Unit_pos
  rw [← hdiv, timestampFields_eq]
  dsimp only
  split_ifs with hcarry
  · have hlarge : ¬ 2 ^ 28 ≤ wholeSeconds b := fun h =>
      (roundedFraction_lt ((Nat.le_div_iff_mul_le f64Unit_pos).1 h)).ne hcarry
    omega
  · rfl

/-! The seconds TSENC accepts. -/

/-- Finite seconds from 0 (or -0.0) to below 2^32 (42_quality_timestamp.md R135). -/
def SecondsOk (b : DWord) : Prop := F64Finite b ∧ 0 ≤ f64Value b ∧ f64Value b < 2 ^ 32

/-- A bound on seconds that are not negative, in units. -/
theorem f64Value_lt_iff {b : DWord} (h : 0 ≤ f64Value b) (n : ℕ) :
    f64Value b < n ↔ f64Scaled b < n * f64Unit := by
  rw [f64Value_of_nonneg h, div_lt_iff₀ f64Unit_cast_pos]
  exact_mod_cast Iff.rfl

theorem le_f64Value_iff {b : DWord} (h : 0 ≤ f64Value b) (n : ℕ) : n ≤ f64Value b ↔ n * f64Unit ≤ f64Scaled b := by
  rw [← not_lt, f64Value_lt_iff h, not_lt]

/-- The model's checks of the seconds are those of R135. -/
theorem secondsOk_iff (b : DWord) :
    SecondsOk b ↔ ¬ (f64IsNaN b ∨ f64IsInf b ∨ f64IsNegative b) ∧ ¬ (timestampFields b).1 > 2 ^ 32 - 1 := by
  have hcap : ¬ (timestampFields b).1 > 2 ^ 32 - 1 ↔ f64Scaled b < 2 ^ 32 * f64Unit := by
    rw [← timestampFields_fst_lt_iff]
    omega
  rw [hcap, ← or_assoc, ← not_f64Finite_iff, f64IsNegative_iff, not_or, not_not, not_lt, and_assoc, SecondsOk]
  refine and_congr_right fun _ => and_congr_right fun h => ?_
  exact_mod_cast f64Value_lt_iff h (2 ^ 32)

/-! The value portion. -/

theorem readFloat64_of_float64 {o : Operand} (h : o.kind = Kind.float64) : o.readFloat64 = .ok o.val := if_pos h

/-- An operand of another kind comes before all else (60_exceptions.md R164). -/
theorem tsval_of_wrongKind {a q : Operand} (h : a.kind ≠ Kind.float64 ∨ q.kind ≠ Kind.quality) :
    tsval a q = .error .typeMismatch := by
  rcases readFloat64_cases a with ⟨ha, hread⟩ | ⟨-, hread⟩
  · have hq : q.readQuality = .error .typeMismatch := if_neg (h.resolve_left (not_not.2 ha))
    rw [tsval, hread, hq, except_ok_bind, except_error_bind]
  · rw [tsval, hread, except_error_bind]

/-- The end of `tsval`, once the seconds are known to be finite and not negative: SEC's bound, then the Quality. -/
def tsvalOfFields (q : Operand) (fields : Nat × Nat) : Except ErrorCode (List Byte) :=
  if fields.1 > 2 ^ 32 - 1 then .error .rangeTimestamp
  else qualval q >>= fun qb => pure (be 4 fields.1 ++ be 3 fields.2 ++ qb)

theorem tsval_of_badBits {a q : Operand} (ha : a.kind = Kind.float64) (hq : q.kind = Kind.quality)
    (h : f64IsNaN a.val ∨ f64IsInf a.val ∨ f64IsNegative a.val) : tsval a q = .error .rangeTimestamp := by
  rw [tsval, readFloat64_of_float64 ha, except_ok_bind, readQuality_of_quality hq, except_ok_bind]
  exact if_pos h

theorem tsval_of_goodBits {a q : Operand} (ha : a.kind = Kind.float64) (hq : q.kind = Kind.quality)
    (h : ¬ (f64IsNaN a.val ∨ f64IsInf a.val ∨ f64IsNegative a.val)) :
    tsval a q = tsvalOfFields q (timestampFields a.val) := by
  rw [tsval, readFloat64_of_float64 ha, except_ok_bind, readQuality_of_quality hq, except_ok_bind, if_neg h]
  obtain ⟨sec, r⟩ := timestampFields a.val
  rfl

/-- With both kinds right, the seconds are checked before the Quality. -/
theorem tsval_of_badSeconds {a q : Operand} (ha : a.kind = Kind.float64) (hq : q.kind = Kind.quality)
    (h : ¬ SecondsOk a.val) : tsval a q = .error .rangeTimestamp := by
  by_cases hbits : f64IsNaN a.val ∨ f64IsInf a.val ∨ f64IsNegative a.val
  · exact tsval_of_badBits ha hq hbits
  · rw [secondsOk_iff, not_and, not_not] at h
    rw [tsval_of_goodBits ha hq hbits]
    exact if_pos (h hbits)

theorem tsval_of_secondsOk {a q : Operand} (ha : a.kind = Kind.float64) (hq : q.kind = Kind.quality)
    (h : SecondsOk a.val) : tsval a q =
      qualval q >>= fun qb => pure (be 4 (timestampFields a.val).1 ++ be 3 (timestampFields a.val).2 ++ qb) := by
  obtain ⟨hbits, hsec⟩ := (secondsOk_iff a.val).1 h
  rw [tsval_of_goodBits ha hq hbits]
  exact if_neg hsec

/-- SEC and FRAC as the statements write them out. -/
theorem timestampWire_eq (sec frac : Nat) : timestampWire sec frac = be 4 sec ++ be 3 frac := by
  simp [timestampWire, be, Nat.shiftRight_eq_div_pow]

/-- The value portion of a Timestamp (42_quality_timestamp.md R133). -/
def timestampBytes (a q : DWord) : List Byte :=
  timestampWire (timestampFields a).1 (timestampFields a).2 ++ [qualityWire q]

theorem shortValue_timestampBytes (a q : DWord) : ShortValue (timestampBytes a q) := by
  simp [ShortValue, timestampBytes, timestampWire]

theorem tsval_eq {a q : Operand} (ha : a.kind = Kind.float64) (hq : q.kind = Kind.quality) (h : SecondsOk a.val)
    (hacc : AccuracyOk (payloadByte q.val 1).toNat) : tsval a q = .ok (timestampBytes a.val q.val) := by
  rw [tsval_of_secondsOk ha hq h, qualval_of_quality hq hacc, except_ok_bind, timestampBytes, timestampWire_eq]
  rfl

/-! The statements. -/

/-- TSENC of seconds and a Quality it accepts appends the Timestamp. -/
theorem tsenc_emits {s : State} (raw : Bool) (tag : Byte) (ha : s.opa.kind = 4) (hq : s.opb.kind = 5)
    (h : SecondsOk s.opa.val) (hacc : AccuracyOk (payloadByte s.opb.val 1).toNat) :
    EmitsBytes (.tsenc raw tag) 0x22 s (wire raw tag (timestampBytes s.opa.val s.opb.val)) :=
  emitsBytes_of_value (tsval_eq ha hq h hacc) (shortValue_timestampBytes _ _) rfl

/-- Settles O46: SEC is the whole seconds and FRAC the rounded fraction, the carry as `timestampFields` makes it. -/
theorem tsencAppendsTimestamp : Obligations.TsencAppendsTimestamp := by
  intro s raw tag ha hq hfinite hlow hhigh hacc
  have hemits := tsenc_emits raw tag ha hq ⟨hfinite, hlow, hhigh⟩ hacc
  rw [timestampBytes, timestampFields_eq] at hemits
  obtain ⟨hfloor, hnext⟩ := wholeSeconds_floor s.opa.val
  have hnear := roundedFraction_nearest s.opa.val
  rw [← f64Value_of_nonneg hlow] at hfloor hnext hnear
  exact ⟨_, _, hfloor, hnext, hnear, hemits⟩

/-- Settles O47: `tsval` checks the kinds, then the seconds, then the Quality. -/
theorem tsencRefusesOtherOperands : Obligations.TsencRefusesOtherOperands := by
  refine fun s raw tag => ⟨fun hk => ?_, fun ha hq hbad => ?_, fun ha hq hfinite hlow hhigh hacc => ?_⟩
  · exact commit_bind_error (tsval_of_wrongKind hk) s 0x22 _
  · have hseconds : ¬ SecondsOk s.opa.val := by
      simpa only [SecondsOk, not_and_or, not_le, not_lt] using hbad
    exact commit_bind_error (tsval_of_badSeconds ha hq hseconds) s 0x22 _
  · have hvalue := tsval_of_secondsOk ha hq ⟨hfinite, hlow, hhigh⟩
    rw [qualval_of_badAccuracy hq hacc] at hvalue
    exact commit_bind_error hvalue s 0x22 _

end Sys2Proof.Machine
end

section
/-! PROOFS. TSDEC's seconds (42_quality_timestamp.md R137, R138): `f64OfFixed24 n` is the binary64 nearest to
n / 2^24. -/

namespace Sys2Proof.Machine

open Sys2Proof.Safety

/-! Patterns written from a significand. -/

/-- A significand from 2^52 to 2^53, added below an exponent: one that was rounded up to 2^53 moves the exponent by one,
and the magnitude is the significand's either way (42_quality_timestamp.md R137). -/
theorem f64_of_significand {b : DWord} {e sig : Nat} (h : b.toNat = (e + 1) * 2 ^ 52 + (sig - 2 ^ 52))
    (he : e + 2 < 2047) (hlow : 2 ^ 52 ≤ sig) (hhigh : sig ≤ 2 ^ 53) :
    F64Finite b ∧ b[63] = false ∧ f64Scaled b = sig * 2 ^ e := by
  rcases hhigh.lt_or_eq with hlt | heq
  · obtain ⟨hexp, hman, hsign⟩ := f64_fields_of_toNat h (by omega) (by omega)
    refine ⟨by show f64Exponent b ≠ 2047; omega, hsign, ?_⟩
    rw [f64Scaled_of_normal (by omega), hexp, hman, Nat.add_sub_cancel' hlow, Nat.add_sub_cancel]
  · have hcarry : b.toNat = (e + 2) * 2 ^ 52 + 0 := by rw [h, heq]; ring
    obtain ⟨hexp, hman, hsign⟩ := f64_fields_of_toNat hcarry (by omega) (by decide)
    refine ⟨by show f64Exponent b ≠ 2047; omega, hsign, ?_⟩
    rw [f64Scaled_of_normal (by omega), hexp, hman, heq, show e + 2 - 1 = e + 1 from rfl, pow_succ]
    ring

/-- The pattern's last bit is the significand's. -/
theorem lastBit_of_significand {b : DWord} {e sig : Nat} (h : b.toNat = (e + 1) * 2 ^ 52 + (sig - 2 ^ 52))
    (hlow : 2 ^ 52 ≤ sig) (heven : Even sig) : b[0] = false := by
  obtain ⟨k, rfl⟩ := heven
  rw [BitVec.getElem_eq_testBit_toNat, Nat.testBit_zero, decide_eq_false_iff_not]
  omega

/-! Values as multiples of 2^k / 2^24. -/

/-- 2^k steps of 2^-24 seconds, in units. -/
theorem steps_mul_unit (k : ℕ) : (2 : ℚ) ^ k / 2 ^ 24 * f64Unit = ((2 ^ (k + 1050) : ℕ) : ℚ) := by
  rw [f64Unit_eq_steps, Nat.cast_mul, Nat.cast_pow, Nat.cast_pow, Nat.cast_pow, Nat.cast_ofNat, pow_add,
    mul_comm ((2 : ℚ) ^ 1050), div_mul_eq_mul_div, mul_comm ((2 : ℚ) ^ 24), ← mul_assoc]
  exact mul_div_cancel_right₀ _ (by positivity)

theorem f64Scaled_div_of_multiple {b : DWord} {a k : ℕ} (h : f64Scaled b = a * 2 ^ (k + 1050)) :
    (f64Scaled b : ℚ) / f64Unit = a * (2 ^ k / 2 ^ 24) := by
  rw [div_eq_iff f64Unit_cast_pos.ne', mul_assoc, steps_mul_unit, h, Nat.cast_mul]

/-- A value from 2^52 of these steps up is a whole number of them. -/
theorem f64Value_multiple {b : DWord} {k : ℕ} (h : 2 ^ 52 * (2 ^ k / 2 ^ 24) ≤ f64Value b) :
    ∃ j : ℕ, f64Value b = j * (2 ^ k / 2 ^ 24) := by
  have hnonneg : 0 ≤ f64Value b := le_trans (by positivity) h
  rw [f64Value_of_nonneg hnonneg] at h ⊢
  rw [le_div_iff₀ f64Unit_cast_pos, mul_assoc, steps_mul_unit] at h
  have hlarge : 2 ^ (52 + (k + 1050)) ≤ f64Scaled b := by
    rw [pow_add]
    exact_mod_cast h
  obtain ⟨j, hj⟩ := two_pow_dvd_f64Scaled hlarge
  exact ⟨j, f64Scaled_div_of_multiple (by rw [hj, mul_comm])⟩

/-! The nearest binary64. -/

/-- A value that is met exactly is the nearest, with no tie. -/
theorem nearestF64_of_eq {b : DWord} {x : ℚ} (hfinite : F64Finite b) (hsign : b[63] = false) (h : f64Value b = x) :
    NearestF64 x b := by
  subst h
  refine ⟨hfinite, hsign, fun w _ => by simp, fun w _ hne htie => ?_⟩
  rw [sub_self, abs_zero, abs_eq_zero, sub_eq_zero] at htie
  exact absurd htie hne

/-- THE KEY FACT: where binary64 values are spaced by `2^k` steps, rounding the number of spacings to nearest, ties to
even, gives the nearest binary64. -/
theorem nearestF64_of_nearestEven {b : DWord} {y : ℚ} {sig k : ℕ} (hfinite : F64Finite b) (hsign : b[63] = false)
    (hval : f64Value b = sig * (2 ^ k / 2 ^ 24)) (hy : 2 ^ 52 ≤ y) (hnear : NearestEven y sig)
    (heven : Even sig → b[0] = false) : NearestF64 (y * (2 ^ k / 2 ^ 24)) b := by
  have hspacing : (0 : ℚ) < 2 ^ k / 2 ^ 24 := by positivity
  have hmultiple {w : DWord} := f64Value_multiple (b := w) (k := k)
  generalize (2 : ℚ) ^ k / 2 ^ 24 = c at *
  have hdist (j : ℕ) : |j * c - y * c| = |y - j| * c := by
    rw [← sub_mul, abs_mul, abs_of_pos hspacing, abs_sub_comm]
  have hbelow {w : DWord} (hw : f64Value w < 2 ^ 52 * c) : |f64Value b - y * c| < |f64Value w - y * c| := by
    have hcorner := nearestEven_le hnear (2 ^ 52)
    have hyc : 2 ^ 52 * c ≤ y * c := mul_le_mul_of_nonneg_right hy hspacing.le
    calc |f64Value b - y * c| = |y - sig| * c := by rw [hval, hdist]
      _ ≤ |y - (2 ^ 52 : ℕ)| * c := mul_le_mul_of_nonneg_right hcorner hspacing.le
      _ = y * c - 2 ^ 52 * c := by
        rw [Nat.cast_pow, Nat.cast_ofNat, abs_of_nonneg (sub_nonneg.2 hy), sub_mul]
      _ < y * c - f64Value w := by linarith
      _ = |f64Value w - y * c| := by rw [abs_sub_comm, abs_of_pos (by linarith)]
  refine ⟨hfinite, hsign, fun w _ => ?_, fun w _ hne htie => ?_⟩
  · rcases lt_or_ge (f64Value w) (2 ^ 52 * c) with hw | hw
    · exact (hbelow hw).le
    · obtain ⟨j, hj⟩ := hmultiple hw
      rw [hval, hj, hdist, hdist]
      exact mul_le_mul_of_nonneg_right (nearestEven_le hnear j) hspacing.le
  · rcases lt_or_ge (f64Value w) (2 ^ 52 * c) with hw | hw
    · exact absurd htie (hbelow hw).ne'
    · obtain ⟨j, hj⟩ := hmultiple hw
      have hjne : j ≠ sig := by
        rintro rfl
        exact hne (hj.trans hval.symm)
      rw [hval, hj, hdist, hdist] at htie
      exact heven (nearestEven_tie hnear hjne (mul_right_cancel₀ hspacing.ne' htie))

/-! `f64OfFixed24`. -/

/-- The significand of `n` steps: its 53 highest bits, the rest rounded (42_quality_timestamp.md R137). -/
def fixed24Significand (n : Nat) : Nat :=
  if Nat.log2 n ≤ 52 then n * 2 ^ (52 - Nat.log2 n) else roundHalfEven n (2 ^ (Nat.log2 n - 52))

theorem fixed24Significand_bounds {n : Nat} (h : n ≠ 0) :
    2 ^ 52 ≤ fixed24Significand n ∧ fixed24Significand n ≤ 2 ^ 53 := by
  have hlow := Nat.log2_self_le h
  have hhigh := (Nat.lt_log2_self (n := n)).le
  unfold fixed24Significand
  split_ifs with htop
  · obtain ⟨k, hk⟩ := Nat.exists_eq_add_of_le htop
    have h52 : 2 ^ n.log2 * 2 ^ k = 2 ^ 52 := by rw [← pow_add, ← hk]
    have h53 : 2 ^ (n.log2 + 1) * 2 ^ k = 2 ^ 53 := by rw [pow_succ, mul_right_comm, h52, ← pow_succ]
    rw [show 52 - n.log2 = k by omega, ← h52, ← h53]
    exact ⟨Nat.mul_le_mul_right _ hlow, Nat.mul_le_mul_right _ hhigh⟩
  · obtain ⟨k, hk⟩ := Nat.exists_eq_add_of_le (le_of_not_ge htop)
    rw [hk] at hlow hhigh
    rw [show n.log2 - 52 = k by omega]
    exact ⟨le_roundHalfEven (Nat.two_pow_pos k) (by rwa [← pow_add]),
      roundHalfEven_le (Nat.two_pow_pos k) (by rwa [← pow_add, show 53 + k = 52 + k + 1 by omega])⟩

theorem f64OfFixed24_toNat {n : Nat} (h0 : n ≠ 0) (h : n < 2 ^ 56) :
    (f64OfFixed24 n).toNat = (n.log2 + 998 + 1) * 2 ^ 52 + (fixed24Significand n - 2 ^ 52) := by
  have htop : n.log2 < 56 := (Nat.log2_lt h0).2 h
  obtain ⟨hlow, hhigh⟩ := fixed24Significand_bounds h0
  have hpattern : f64OfFixed24 n = BitVec.ofNat 64 ((n.log2 + 999) * 2 ^ 52 + (fixed24Significand n - 2 ^ 52)) :=
    if_neg h0
  rw [hpattern, BitVec.toNat_ofNat, Nat.mod_eq_of_lt (by omega)]

theorem f64OfFixed24_spec {n : Nat} (h0 : n ≠ 0) (h : n < 2 ^ 56) :
    F64Finite (f64OfFixed24 n) ∧ (f64OfFixed24 n)[63] = false ∧
    f64Scaled (f64OfFixed24 n) = fixed24Significand n * 2 ^ (n.log2 + 998) := by
  have htop : n.log2 < 56 := (Nat.log2_lt h0).2 h
  obtain ⟨hlow, hhigh⟩ := fixed24Significand_bounds h0
  exact f64_of_significand (f64OfFixed24_toNat h0 h) (by omega) hlow hhigh

/-- Up to 53 bits nothing is rounded (42_quality_timestamp.md R137). -/
theorem f64OfFixed24_exact {n : Nat} (h : n < 2 ^ 53) :
    F64Finite (f64OfFixed24 n) ∧ (f64OfFixed24 n)[63] = false ∧ f64Value (f64OfFixed24 n) = n / 2 ^ 24 := by
  rcases eq_or_ne n 0 with rfl | h0
  · obtain ⟨hexp, hman, hsign⟩ := f64_fields_of_toNat (b := f64OfFixed24 0) (e := 0) (m := 0) rfl (by decide)
      (by decide)
    refine ⟨by show f64Exponent _ ≠ 2047; omega, hsign, ?_⟩
    rw [f64Value_of_positive hsign, f64Scaled_of_subnormal hexp, hman, Nat.cast_zero, zero_div, zero_div]
  · obtain ⟨hfinite, hsign, hscaled⟩ := f64OfFixed24_spec h0 (by omega)
    obtain ⟨k, hk⟩ := Nat.exists_eq_add_of_lt ((Nat.log2_lt h0).2 h)
    have hsig : fixed24Significand n = n * 2 ^ k := by
      rw [fixed24Significand, if_pos (by omega), show 52 - n.log2 = k by omega]
    rw [hsig, mul_assoc, ← pow_add, show k + (n.log2 + 998) = 0 + 1050 by omega] at hscaled
    refine ⟨hfinite, hsign, ?_⟩
    rw [f64Value_of_positive hsign, f64Scaled_div_of_multiple hscaled, pow_zero, mul_one_div]

/-- The nearest binary64 to `n` steps of 2^-24 seconds. -/
theorem f64OfFixed24_nearest {n : Nat} (h : n < 2 ^ 56) : NearestF64 (n / 2 ^ 24) (f64OfFixed24 n) := by
  rcases lt_or_ge n (2 ^ 53) with hsmall | hlarge
  · obtain ⟨hfinite, hsign, hval⟩ := f64OfFixed24_exact hsmall
    exact nearestF64_of_eq hfinite hsign hval
  · have h0 : n ≠ 0 := by omega
    obtain ⟨hfinite, hsign, hscaled⟩ := f64OfFixed24_spec h0 h
    obtain ⟨k, hk⟩ := Nat.exists_eq_add_of_le ((Nat.le_log2 h0).2 hlarge)
    have hsig : fixed24Significand n = roundHalfEven n (2 ^ (k + 1)) := by
      rw [fixed24Significand, if_neg (by omega), show n.log2 - 52 = k + 1 by omega]
    rw [show n.log2 + 998 = k + 1 + 1050 by omega] at hscaled
    have hval : f64Value (f64OfFixed24 n) = fixed24Significand n * (2 ^ (k + 1) / 2 ^ 24) := by
      rw [f64Value_of_positive hsign, f64Scaled_div_of_multiple hscaled]
    have hnear := roundHalfEven_nearest n (Nat.two_pow_pos (k + 1))
    rw [← hsig, Nat.cast_pow, Nat.cast_ofNat] at hnear
    have htop : (2 : ℚ) ^ 52 ≤ n / 2 ^ (k + 1) := by
      have hle := Nat.log2_self_le h0
      rw [hk, show 53 + k = 52 + (k + 1) by omega, pow_add] at hle
      rw [le_div_iff₀ (by positivity)]
      exact_mod_cast hle
    have hresult := nearestF64_of_nearestEven hfinite hsign hval htop hnear
      (lastBit_of_significand (f64OfFixed24_toNat h0 h) (fixed24Significand_bounds h0).1)
    rwa [div_mul_div_cancel₀ (by positivity)] at hresult

end Sys2Proof.Machine
end

section
/-! PROOFS. The statements about TSDEC, and the round trip of a Timestamp (42_quality_timestamp.md R137 to R139). -/

namespace Sys2Proof.Machine

open Sys2Proof.Safety

/-! The value portion read. -/

/-- TSDEC writes to OPA and OPB what it reads from the value portion. -/
theorem tsdec_setOperands {s : State} {raw : Bool} {tag : Byte} {v : List Byte} {a b : Operand}
    (h : TakesValue raw tag s v) (hv : tsof v = .ok (a, b)) :
    ∃ t, exec (.tsdec raw tag) s = .next t ∧ SetOperands s t 0x23 a b := by
  refine ⟨_, ?_, setOperands_setBoth s 0x23 a b⟩
  show s.commit 0x23 (s.takeValue raw tag >>= _) = _
  rw [commit_bind_ok (takeValue_of_takesValue h), commit_bind_ok hv]
  rfl

theorem ube_triple (b2 b1 b0 : Byte) : ube [b2, b1, b0] = (b2 ++ b1 ++ b0).toNat := by
  simp only [ube, toNat_append_byte, List.length_cons, List.length_nil]
  omega

/-- SEC and FRAC of eight bytes, in steps of 2^-24 seconds. -/
def wireSteps (s3 s2 s1 s0 f2 f1 f0 : Byte) : Nat :=
  (s3 ++ s2 ++ s1 ++ s0).toNat * 2 ^ 24 + (f2 ++ f1 ++ f0).toNat

/-- A value portion of eight bytes is SEC's four, FRAC's three and the Quality (42_quality_timestamp.md R133). -/
theorem tsof_append {sec frac : List Byte} {q : Byte} {o : Operand} (hsec : sec.length = 4) (hfrac : frac.length = 3)
    (h : qualof q = .ok o) :
    tsof (sec ++ frac ++ [q]) = .ok ({ kind := 4, val := f64OfFixed24 (ube sec * 2 ^ 24 + ube frac) }, o) := by
  match sec, frac with
  | [s3, s2, s1, s0], [f2, f1, f0] =>
    show (qualof q >>= _) = _
    rw [h, except_ok_bind]
    rfl

theorem tsof_eq {s3 s2 s1 s0 f2 f1 f0 q : Byte} {o : Operand} (h : qualof q = .ok o) :
    tsof [s3, s2, s1, s0, f2, f1, f0, q] =
      .ok ({ kind := 4, val := f64OfFixed24 (wireSteps s3 s2 s1 s0 f2 f1 f0) }, o) := by
  rw [wireSteps, ← ube_quad, ← ube_triple]
  exact tsof_append (sec := [s3, s2, s1, s0]) (frac := [f2, f1, f0]) rfl rfl h

theorem wireSteps_lt (s3 s2 s1 s0 f2 f1 f0 : Byte) : wireSteps s3 s2 s1 s0 f2 f1 f0 < 2 ^ 56 := by
  have hsec := (s3 ++ s2 ++ s1 ++ s0).isLt
  have hfrac := (f2 ++ f1 ++ f0).isLt
  unfold wireSteps
  omega

theorem wireSteps_div (s3 s2 s1 s0 f2 f1 f0 : Byte) :
    (wireSteps s3 s2 s1 s0 f2 f1 f0 : ℚ) / 2 ^ 24 = timestampValue s3 s2 s1 s0 f2 f1 f0 := by
  rw [wireSteps, timestampValue]
  push_cast
  ring

/-- Settles O48: `f64OfFixed24` is the nearest binary64. -/
theorem tsdecReadsNearestSeconds : Obligations.TsdecReadsNearestSeconds := by
  intro s raw tag s3 s2 s1 s0 f2 f1 f0 q h hacc
  obtain ⟨t, ht, hset⟩ := tsdec_setOperands h (tsof_eq (qualof_of_accuracyOk hacc))
  refine ⟨t, _, ht, hset, ?_⟩
  rw [← wireSteps_div]
  exact f64OfFixed24_nearest (wireSteps_lt s3 s2 s1 s0 f2 f1 f0)

/-- Settles O49: fewer than 2^29 seconds are fewer than 2^53 steps, which `f64OfFixed24` does not round. -/
theorem tsdecExactBelowTwoPow29 : Obligations.TsdecExactBelowTwoPow29 := by
  intro s raw tag s3 s2 s1 s0 f2 f1 f0 q h hacc hsec
  obtain ⟨t, ht, hset⟩ := tsdec_setOperands h (tsof_eq (qualof_of_accuracyOk hacc))
  have hsmall : wireSteps s3 s2 s1 s0 f2 f1 f0 < 2 ^ 53 := by
    have hfrac := (f2 ++ f1 ++ f0).isLt
    unfold wireSteps
    omega
  obtain ⟨hfinite, -, hval⟩ := f64OfFixed24_exact hsmall
  rw [wireSteps_div] at hval
  exact ⟨t, ht, by rwa [hset.opa], by rwa [hset.opa]⟩

/-! Seconds there and back (42_quality_timestamp.md R139). -/

theorem timestampFields_fst_lt {b : DWord} (h : SecondsOk b) : (timestampFields b).1 < 2 ^ 32 := by
  have := ((secondsOk_iff b).1 h).2
  omega

theorem timestampSteps_lt {b : DWord} (h : SecondsOk b) : timestampSteps b < 2 ^ 56 := by
  have hsec := timestampFields_fst_lt h
  have hfrac := timestampFields_snd_lt b
  unfold timestampSteps
  omega

/-- The decoder puts SEC and FRAC together again. -/
theorem tsof_timestampBytes {a q : DWord} {o : Operand} (h : SecondsOk a) (hq : qualof (qualityWire q) = .ok o) :
    tsof (timestampBytes a q) = .ok ({ kind := 4, val := f64OfFixed24 (timestampSteps a) }, o) := by
  have hsec : ube (be 4 (timestampFields a).1) = (timestampFields a).1 := ube_be_of_lt (timestampFields_fst_lt h)
  have hfrac : ube (be 3 (timestampFields a).2) = (timestampFields a).2 := ube_be_of_lt (timestampFields_snd_lt a)
  rw [timestampBytes, timestampWire_eq, tsof_append (be_length _ _) (be_length _ _) hq, hsec, hfrac, timestampSteps]

/-- From 2^28 seconds up the same pattern comes back. -/
theorem f64OfFixed24_timestampSteps_exact {b : DWord} (h : SecondsOk b) (hlarge : 2 ^ 28 ≤ f64Value b) :
    f64OfFixed24 (timestampSteps b) = b := by
  obtain ⟨-, hsign, hnearest, -⟩ := f64OfFixed24_nearest (timestampSteps_lt h)
  obtain ⟨hfinite, hnonneg, -⟩ := h
  have hunits : 2 ^ 28 * f64Unit ≤ f64Scaled b :=
    (le_f64Value_iff hnonneg (2 ^ 28)).1 (by exact_mod_cast hlarge)
  have hsteps : (timestampSteps b : ℚ) / 2 ^ 24 = f64Value b := by
    rw [timestampSteps_exact hunits, f64Value_of_nonneg hnonneg]
  have hval : f64Value (f64OfFixed24 (timestampSteps b)) = f64Value b := by
    have hle := hnearest b hfinite
    rwa [hsteps, sub_self, abs_zero, abs_nonpos_iff, sub_eq_zero] at hle
  have hsign' := sign_of_pos (lt_of_lt_of_le (by norm_num) hlarge)
  rw [f64Value_of_positive hsign, f64Value_of_positive hsign', div_left_inj' f64Unit_cast_pos.ne', Nat.cast_inj] at hval
  exact f64Scaled_injective hsign hsign' hval

/-- Below, the steps are few enough to be met exactly, so that only the encoder rounded. -/
theorem f64OfFixed24_timestampSteps_near {b : DWord} (h : SecondsOk b) :
    F64Finite (f64OfFixed24 (timestampSteps b)) ∧
    |f64Value (f64OfFixed24 (timestampSteps b)) - f64Value b| ≤ 1 / 2 ^ 25 := by
  rcases lt_or_ge (f64Value b) (2 ^ 28) with hsmall | hlarge
  · have hnear := timestampSteps_near b
    rw [← f64Value_of_nonneg h.2.1] at hnear
    have hlt : timestampSteps b < 2 ^ 53 := by
      have hupper := (abs_le.1 hnear).2
      have : (timestampSteps b : ℚ) < 2 ^ 53 := by linarith
      exact_mod_cast this
    obtain ⟨hfinite, -, hval⟩ := f64OfFixed24_exact hlt
    exact ⟨hfinite, by rwa [hval]⟩
  · rw [f64OfFixed24_timestampSteps_exact h hlarge, sub_self, abs_zero]
    exact ⟨h.1, by positivity⟩

/-- Settles O57: TSENC's bytes reach TSDEC through MOVOI, which reads the same number of steps and the same Quality. -/
theorem timestampRoundTripWithinHalfStep : Obligations.TimestampRoundTripWithinHalfStep := by
  intro s raw tag hok hempty ha hq hfinite hlow hhigh hacc
  have hseconds : SecondsOk s.opa.val := ⟨hfinite, hlow, hhigh⟩
  have hshort := shortValue_timestampBytes s.opa.val s.opb.val
  obtain ⟨hemits, -⟩ := tsenc_emits raw tag ha hq hseconds hacc
  obtain ⟨s1, hs1, happended⟩ := hemits (wire_fits hok hempty raw tag hshort)
  obtain ⟨s2, hs2, -, hin⟩ := movoi_inHolds (outHolds_of_appended hempty happended)
  obtain ⟨t, ht, hset⟩ := tsdec_setOperands (takesValue_of_wire hshort hin)
    (tsof_timestampBytes hseconds (qualof_qualityWire hacc))
  obtain ⟨hback, hnear⟩ := f64OfFixed24_timestampSteps_near hseconds
  refine ⟨s1, s2, t, hs1, hs2, ht, by rw [hset.ends.status], ?_⟩
  rw [hset.opa]
  exact ⟨rfl, hback, hnear, fun hlarge => by
    rw [f64OfFixed24_timestampSteps_exact hseconds hlarge, operand_of_kind ha], hset.opb⟩

end Sys2Proof.Machine
end

section
/-! PROOFS. The buffer and status control commands (43_buffer_control.md): their words, and what they leave. -/

namespace Sys2Proof.Machine

open Sys2Proof.Safety

/-! The words of the control commands. -/

/-- A well-formed command has exactly one word (30_encoding.md R60, R69). -/
theorem decode_eq_ok_iff {i : Instr} (hwf : i.wf = true) (w : Word) : decode w = .ok i ↔ w = encode i := by
  constructor
  · exact fun h => (encode_of_decode h).symm
  · rintro rfl
    exact (decode_encode_eq i).trans (decodeFields_of_wf hwf)

/-- No other row of the opcode map has CLROUT's OP (30_encoding.md R65). -/
theorem eq_clrout_of_opcode {i : Instr} (h : i.opcode = 0x30#8) : i = .clrout := by
  cases i with
  | clrout => rfl
  | _ => simp [Instr.opcode] at h

theorem decode_eq_clrout_iff (w : Word) : decode w = .ok .clrout ↔ w = 0x30 :=
  decode_eq_ok_iff (i := .clrout) rfl w

/-- A legal word with CLROUT's OP decodes, and to nothing but CLROUT. -/
theorem eq_clrout_word_of_legal {w : Word} (hop : opField w = 0x30#8) (h : legal w = true) : w = 0x30 := by
  obtain ⟨i, hi⟩ := (decode_accepts_iff w).2 h
  obtain ⟨-, hopcode, -⟩ := decode_ok hi
  obtain rfl := eq_clrout_of_opcode (hopcode.trans hop)
  exact (decode_eq_clrout_iff w).1 hi

/-! What the commands leave. -/

/-- MOVOI's results, before STATUS is written; `exec_movoi` ties it to the command. -/
def State.movedOut (s : State) : State :=
  { s.emptyOut with input := s.input.write 0 s.outBytes, inLen := s.outLen }

theorem exec_clrout (s : State) : exec .clrout s = .next (s.emptyOut.complete 0x30) := commit_ok s s.emptyOut 0x30

theorem exec_clrst (s : State) :
    exec .clrst s = .next (({ s with status := s.status.clearSticky } : State).complete 0x31) :=
  commit_ok s { s with status := s.status.clearSticky } 0x31

theorem exec_movoi (s : State) : exec .movoi s = .next (s.movedOut.complete 0x32) := commit_ok s s.movedOut 0x32

/-- Both commands that empty OUT leave no byte of it specified (93_implementation_defined.md U3). -/
theorem emptyOut_lookup (s : State) (a : Nat) : s.emptyOut.output.lookup a = none := Memory.lookup_forget s.output a

/-- MOVOI leaves OUT's bytes in IN below OUT_LEN, and IN's own from there on. -/
theorem movedOut_inByte (s : State) (a : Nat) :
    s.movedOut.inByte a = if a < s.outLen.toNat then s.outByte a else s.inByte a := by
  refine (inByte_write s 0 s.outBytes a).trans ?_
  rw [Nat.zero_add, outBytes_length, Nat.sub_zero]
  by_cases h : a < s.outLen.toNat
  · have hlen : a < s.outBytes.length := h.trans_eq (outBytes_length s).symm
    rw [if_pos ⟨Nat.zero_le a, h⟩, if_pos h, List.getD_eq_getElem _ _ hlen, outBytes_getElem]
  · rw [if_neg fun hin => h hin.2, if_neg h]

/-! The statements. -/

/-- Settles O50: a legal word with this OP can only be CLROUT's, and CLROUT completes with OUT emptied. -/
theorem clroutEmptiesOutput : Obligations.ClroutEmptiesOutput := by
  refine ⟨fun w hop => ⟨decode_eq_clrout_iff w, fun hne => ?_⟩, fun s => ?_⟩
  · exact Bool.eq_false_iff.2 fun hlegal => hne (eq_clrout_word_of_legal hop hlegal)
  · exact ⟨_, exec_clrout s, ends_complete 0x30 rfl rfl rfl rfl, rfl, emptyOut_lookup s, rfl, rfl, rfl, fun _ => rfl⟩

/-- Settles O51: STICKY is cleared, and completing writes the other two fields of STATUS. -/
theorem clrstClearsSticky : Obligations.ClrstClearsSticky :=
  ⟨(decode_eq_clrst_iff 0x31).2 rfl, exec_clrst⟩

/-- Settles O52: MOVOI completes with OUT emptied and OUT's contents written to IN. -/
theorem movoiMovesOutputToInput : Obligations.MovoiMovesOutputToInput := by
  refine ⟨(decode_eq_ok_iff (i := .movoi) rfl 0x32).2 rfl, fun s => ⟨_, exec_movoi s, ?_⟩⟩
  have hbelow : ∀ a, a < s.outLen.toNat → s.movedOut.inByte a = s.outByte a :=
    fun a ha => (movedOut_inByte s a).trans (if_pos ha)
  have habove : ∀ a, s.outLen.toNat ≤ a → s.movedOut.inByte a = s.inByte a :=
    fun a ha => (movedOut_inByte s a).trans (if_neg (Nat.not_lt.2 ha))
  exact ⟨ends_complete 0x32 rfl rfl rfl rfl, rfl, rfl, hbelow, habove, emptyOut_lookup s, rfl, rfl⟩

end Sys2Proof.Machine
end

section
/-! PROOFS. Errors (60_exceptions.md): the commit rule, the codes a command raises, and operands of the wrong kind. -/

namespace Sys2Proof.Machine

open Sys2Proof.Safety

/-! The two ways a command ends, read off its CODE (60_exceptions.md R162). -/

theorem complete_code (s : State) (op : Byte) : (s.complete op).status.code = 0 := rfl

theorem raiseError_eq_errored (s : State) (op : Byte) (e : ErrorCode) : s.raiseError op e = errored s op e.code := rfl

theorem raiseError_code_ne_zero (s : State) (op : Byte) (e : ErrorCode) : (s.raiseError op e).status.code ≠ 0 :=
  errorCode_ne_zero e

/-- STICKY after a command that completed (10_state.md R22). -/
theorem complete_sticky_of_effect {s s' : State} {i : Instr} (h : Effect s i s') (op : Byte) :
    (s'.complete op).status.sticky = if i = .clrst then false else s.status.sticky := by
  rw [complete_status, effect_status h]
  split_ifs <;> rfl

/-- Settles O10: CODE tells the two ways a command ends apart, and each way has its own writes to STATUS. -/
theorem errorWritesStatusOnly : Obligations.ErrorWritesStatusOnly := by
  intro i s t h
  rcases exec_cases h with ⟨s', he, rfl⟩ | ⟨e, -, rfl⟩
  · exact ⟨fun hne => absurd (complete_code s' i.opcode) hne, fun _ => ⟨rfl, complete_sticky_of_effect he i.opcode⟩⟩
  · exact ⟨fun _ => raiseError_eq_errored s i.opcode e,
      fun hzero => absurd hzero (raiseError_code_ne_zero s i.opcode e)⟩

/-- Settles O12: a command completes with CODE 0x00, or raises a code that `exec_cases` finds in its row. -/
theorem commandRaisesListedCodesOnly : Obligations.CommandRaisesListedCodesOnly := by
  intro i s t h
  rcases exec_cases h with ⟨s', -, rfl⟩ | ⟨e, he, rfl⟩
  · exact .inl (complete_code s' i.opcode)
  · exact .inr he

/-! Operands of the wrong kind, reserved kinds included (10_state.md R13). -/

theorem readInt_of_wrongKind {o : Operand} (h : o.kind ≠ Kind.int) : o.readInt = .error .typeMismatch := if_neg h

theorem readFloat32_of_wrongKind {o : Operand} (h : o.kind ≠ Kind.float32) : o.readFloat32 = .error .typeMismatch :=
  if_neg h

theorem readFloat64_of_wrongKind {o : Operand} (h : o.kind ≠ Kind.float64) : o.readFloat64 = .error .typeMismatch :=
  if_neg h

theorem readQuality_of_wrongKind {o : Operand} (h : o.kind ≠ Kind.quality) : o.readQuality = .error .typeMismatch :=
  if_neg h

/-- Only the absent value and a BOOL have a Boolean value portion (41_scalar_codecs.md R101). -/
theorem boolval_of_wrongKind {o : Operand} (hnone : o.kind ≠ Kind.none) (hbool : o.kind ≠ Kind.bool) :
    boolval o = .error .typeMismatch := by
  rw [boolval, if_neg hnone, if_neg hbool]

theorem sintval_of_wrongKind {o : Operand} (h : o.kind ≠ Kind.int) : sintval o = .error .typeMismatch := by
  rw [sintval, readInt_of_wrongKind h, except_error_bind]

theorem uintval_of_wrongKind {o : Operand} (h : o.kind ≠ Kind.int) : uintval o = .error .typeMismatch := by
  rw [uintval, readInt_of_wrongKind h, except_error_bind]

/-- PREC decides which of the two FLOAT kinds is the wrong one (41_scalar_codecs.md R111). -/
theorem fltval_single_of_wrongKind {o : Operand} (h : o.kind ≠ Kind.float32) (p : Config.Params) :
    fltval p .single o = .error .typeMismatch := by
  simp only [fltval, readFloat32_of_wrongKind h, except_error_bind]

theorem fltval_double_of_wrongKind {o : Operand} (h : o.kind ≠ Kind.float64) (p : Config.Params) :
    fltval p .double o = .error .typeMismatch := by
  simp only [fltval, readFloat64_of_wrongKind h, except_error_bind]

theorem qualval_of_wrongKind {o : Operand} (h : o.kind ≠ Kind.quality) : qualval o = .error .typeMismatch := by
  rw [qualval, readQuality_of_wrongKind h, except_error_bind]

/-- Settles O53: every encoder reads its operand first, so the kind is checked before all else (60_exceptions.md R164). -/
theorem wrongKindIsTypeMismatch : Obligations.WrongKindIsTypeMismatch := by
  refine fun s raw tag => ⟨fun h => ?lenenc, fun hnone hbool => ?boolenc, fun h => ?sintenc, fun h => ?uintenc,
    fun h => ?single, fun h => ?double, fun h => ?qualenc⟩
  case lenenc => exact commit_bind_error (readInt_of_wrongKind h) s 0x01 _
  case boolenc => exact commit_bind_error (boolval_of_wrongKind hnone hbool) s 0x10 _
  case sintenc => exact commit_bind_error (sintval_of_wrongKind h) s 0x12 _
  case uintenc => exact commit_bind_error (uintval_of_wrongKind h) s 0x14 _
  case single => exact commit_bind_error (fltval_single_of_wrongKind h s.params) s 0x16 _
  case double => exact commit_bind_error (fltval_double_of_wrongKind h s.params) s 0x16 _
  case qualenc => exact commit_bind_error (qualval_of_wrongKind h) s 0x20 _

end Sys2Proof.Machine
end

section
/-! PROOFS. The statements about reset and the host's sequence of accesses (70_reset_and_hazards.md). -/

namespace Sys2Proof.Machine

/-! Nothing the block does writes the host's further accesses (R189; log entry 1). -/

theorem effect_pending {s s' : State} {i : Instr} (h : Effect s i s') : s'.pending = s.pending := by
  cases h with
  | appended hi h => obtain ⟨-, rfl⟩ := append_ok h; rfl
  | _ => rfl

theorem runCommand_pending {w : Word} {s t : State} (h : runCommand w s = .next t) : t.pending = s.pending := by
  rcases runCommand_cases h with ⟨i, s', -, he, rfl⟩ | ⟨e, -, rfl⟩
  · exact (complete_pending s' _).trans (effect_pending he)
  · rfl

@[simp] theorem writeInLen_pending (s : State) (v : Word) : (s.writeInLen v).pending = s.pending := by
  unfold State.writeInLen
  split_ifs <;> rfl

@[simp] theorem inWrite_pending (s : State) (k : Nat) (b : Byte) : (s.inWrite k b).pending = s.pending := by
  unfold State.inWrite
  split_ifs <;> rfl

/-- Not even reset drops an access still to come (log entry 10). -/
theorem hostEffect_pending {s t : State} {a : HostAction} (h : HostEffect s a t) : t.pending = s.pending := by
  cases h with
  | wroteInLen hn => exact writeInLen_pending s _
  | wroteIn k b => exact inWrite_pending s k b
  | _ => rfl

theorem hostAccess_pending {a : HostAction} {s t : State} (h : hostAccess a s = .next t) : t.pending = s.pending := by
  rcases hostAccess_cases h with ⟨v, -, hr⟩ | he
  · exact runCommand_pending hr
  · exact hostEffect_pending he

/-! Every access answers, so a step takes exactly one access off the port. -/

/-- Every register write answers a next state: CMD because every command ends (R188), any other register at once. -/
theorem writeRegister_answers (n : BitVec 4) (v : DWord) (s : State) : ∃ t, writeRegister n v s = .next t := by
  by_cases hn : n = 0
  · subst hn
    exact runCommand_answers (v.setWidth 32) s
  · exact ⟨_, writeRegister_eq hn v s⟩

/-- Every host access answers a next state (R190). -/
theorem hostAccess_answers (a : HostAction) (s : State) : ∃ t, hostAccess a s = .next t := by
  cases a with
  | writeReg n v => exact writeRegister_answers n v s
  | _ => exact ⟨_, rfl⟩

theorem step_nil {s : State} (h : s.pending = []) : step s = .next s := by
  simp [step, h]

theorem step_takes_access {s : State} {a : HostAction} {rest : List HostAction} (h : s.pending = a :: rest) :
    ∃ t, step s = .next t ∧ t.pending = rest := by
  obtain ⟨t, ht⟩ := hostAccess_answers a (s.accepted rest)
  exact ⟨t, (step_cons s h).trans ht, (hostAccess_pending ht).trans (accepted_pending s rest)⟩

/-- A run whose first step answers goes on from the state it answers, whatever the machine. -/
theorem run_succ_of_step {M : Host.Core} {s t : M.State} (h : M.step s = .next t) (k : Nat) :
    M.run (k + 1) s = M.run k t := by
  rw [Host.Core.run, h]

/-- As many steps as there are accesses in `as` take just those off the port, whatever stands behind them. -/
theorem run_takes_accesses (as rest : List HostAction) {s : State} (h : s.pending = as ++ rest) :
    ∃ t : State, Host.Core.run Sys2Proof.core as.length s = .next t ∧ t.pending = rest := by
  induction as generalizing s with
  | nil => exact ⟨s, rfl, h⟩
  | cons a as ih =>
    obtain ⟨u, hstep, hu⟩ := step_takes_access h
    obtain ⟨t, hrun, ht⟩ := ih hu
    exact ⟨t, (run_succ_of_step (M := Sys2Proof.core) hstep as.length).trans hrun, ht⟩

/-! The statements. -/

/-- Settles O9: a run takes all pending accesses off the port, with none behind them. -/
theorem everyHostSequenceEnds : Obligations.EveryHostSequenceEnds :=
  fun s => run_takes_accesses s.pending [] (List.append_nil s.pending).symm

/-- Settles O7. -/
theorem emptyPortLeavesStateAlone : Obligations.EmptyPortLeavesStateAlone := fun _ => step_nil

/-- Settles O23: the step is the host's reset of the state the port leaves, whose registers are `State.resetWith`'s and
whose buffers have been made to forget every byte. -/
theorem resetAccessRestoresResetValues : Obligations.ResetAccessRestoresResetValues := by
  intro s rest hp
  have hstep : step s = .next (s.accepted rest).hostReset := step_cons s hp
  have hbuffers : ∀ a, (s.accepted rest).hostReset.input.lookup a = none ∧
      (s.accepted rest).hostReset.output.lookup a = none :=
    fun a => ⟨Memory.lookup_forget s.input a, Memory.lookup_forget s.output a⟩
  exact ⟨_, hstep, rfl, rfl, rfl, rfl, rfl, hbuffers⟩

end Sys2Proof.Machine
end
